-- ==== Sys2Proof/Word.lean ====
section
/-! DEFINITION. The word types of the base-n Base32 codec block: bytes, 32-bit bus words and
command words, 5-bit values, 24-bit block addresses (00_scope.md R6, R8; 20_memory.md R50). -/

namespace Sys2Proof

/-- A byte: an IN or OUT cell, a Symbol, a byte of a name (R6, R9). -/
abbrev Byte := BitVec 8

/-- A 32-bit word: a register, a command word, the value of a bus access (R31 to R35, R70). -/
abbrev Word := BitVec 32

/-- A 5-bit value `0..31`, the unit the codec packs (R6, glossary "5-bit value"). -/
abbrev Value := BitVec 5

/-- A byte address of the block's one address space, `0x000000..0xFFFFFF` (R50). -/
abbrev Addr := BitVec 24

end Sys2Proof
end

