-- ==== Sys2Proof/Config.lean ====
section
/-! DEFINITION. What the spec leaves to an implementation: the parameters of 00_scope.md R5, and the
free values (93_implementation_defined.md U2, U5, U6, U9). A free value is a constant with no body:
nothing can be proved of what it is. -/

namespace Sys2Proof

/-- The parameters a model takes as arguments (R5; D9, D25). -/
structure Params where
  /-- `IN_MAX`: capacity of the IN buffer in bytes. -/
  inMax : Nat
  /-- `OUT_MAX`: capacity of the OUT buffer in bytes. -/
  outMax : Nat
  /-- `NAME_PLACEHOLDER`: what GET_NAME returns when no name was set. -/
  namePlaceholder : List Byte
  deriving DecidableEq, Repr

/-- The length of the longest ENCODE result of `n` bytes, `8 * ceil(n / 5)` (R5, R131). -/
def maxEncodedLength (n : Nat) : Nat := 8 * ((n + 4) / 5)

/-- Three free numbers brought into the ranges of R5. Every parameter triple that meets R5 is
`Params.ofRaw` of some triple (`Sys2Proof.Params.ofRaw_onto`), so no block is left out. `655360` is the
largest `IN_MAX` that leaves room for an `OUT_MAX` (`8 * ceil(655360 / 5) = 2^20`). -/
def Params.ofRaw (rawIn rawOut : Nat) (rawName : List Byte) : Params :=
  let inMax := 1 + rawIn % 655360
  let name := rawName.take (2 ^ 20)
  let least := max (maxEncodedLength inMax) name.length
  { inMax := inMax, outMax := least + rawOut % (2 ^ 20 - least + 1), namePlaceholder := name }

/-- FREE VALUE behind `IN_MAX` (U6; log 1). -/
opaque Config.rawInMax : Nat

/-- FREE VALUE behind `OUT_MAX` (U6; log 1). -/
opaque Config.rawOutMax : Nat

/-- FREE VALUE behind `NAME_PLACEHOLDER` (U5; log 1). -/
opaque Config.rawNamePlaceholder : List Byte

/-- The parameters of the block that `State.reset` describes: free, within R5 (log 1). -/
def Config.params : Params :=
  Params.ofRaw Config.rawInMax Config.rawOutMax Config.rawNamePlaceholder

/-- FREE VALUE: what the byte at a block address of the IN or OUT window holds when nothing has
written it since the reset numbered by the first argument (R61, U2, D33; log 2). -/
opaque Config.unwrittenByte : Nat → Nat → Byte

/-- FREE VALUE: how many host turns pass between the issue of a command and its completion (R235, U9, D22).
R235 lets the delay "depend on the command and on IN_LEN": the arguments are the number of commands issued
before, the command word and IN_LEN. DESIGN CHOICE (log 4): it depends on nothing else. -/
opaque Config.completionDelay (issue : Nat) (command inLen : Word) : Nat

end Sys2Proof
end

