-- ==== Sys2Proof/Syntax.lean ====
section
/-! DEFINITION. The ten commands of the opcode map (30_encoding.md R74), one constructor per row of
spec/opcode_table.json. The byte-string operands are not syntax: a command takes them from
`IN[0..IN_LEN)` (R73). -/

namespace Sys2Proof

/-- A command of the block with the fields of its word (R71, R72, R74). -/
inductive Instr where
  /-- NEW: start a new builder (R101). -/
  | new
  /-- SET_NAME: `set_name(label)` (R102). -/
  | setName
  /-- SET_PADDING: `set_padding(enabled)`, `en = EN = w[4]` (R103). -/
  | setPadding (en : Bool)
  /-- DECLARE_MAPPING: `declare_mapping(symbols[32])` (R104). -/
  | declareMapping
  /-- DECLARE_ALIASES: `declare_aliases(symbols, value)`, `val = VAL = w[8:4]` (R105). -/
  | declareAliases (val : Value)
  /-- FINALIZE: `finalize()` (R106). -/
  | finalize
  /-- ENCODE: `encode(alphabet, data)` (R130). -/
  | encode
  /-- DECODE: `decode(alphabet, text)` (R150). -/
  | decode
  /-- GET_NAME: `alphabet.name()` (R180). -/
  | getName
  /-- GET_PADDING: `alphabet.padding_enabled()` (R181). -/
  | getPadding
  deriving DecidableEq, Repr

end Sys2Proof
end

