-- ==== Sys2Proof/Machine/State.lean ====
section
/-! DEFINITION. The state of the block (10_state.md), the operations of the host (20_memory.md,
30_encoding.md R78), the reasons a step can stop, and the state after reset (R39). -/

namespace Sys2Proof.Machine

/-- `PHASE`, the lifecycle of the alphabet slot (R26). `0b11` is never produced, so it has no name. -/
inductive Phase where
  | building
  | frozen
  | fault
  deriving DecidableEq, Repr

/-- The codes of STATUS.ERR (R202). Codes 6 to 15 are never written, so they have no name. -/
inductive ErrCode where
  | ok
  | illegal
  | phase
  | length
  | decode
  | config
  deriving DecidableEq, Repr

/-- `CFG_CAUSE`, which alphabet invariants the last failing FINALIZE found violated (R27). -/
structure CfgCause where
  /-- bit 0 -/
  fwdIncomplete : Bool
  /-- bit 1 -/
  revNotSurjective : Bool
  /-- bit 2 -/
  padNotZero : Bool
  deriving DecidableEq, Repr

/-- `CFG_CAUSE = 0b000`. -/
def CfgCause.none : CfgCause := ⟨false, false, false⟩

/-- The forward table: per 5-bit value INVALID (`none`) or a Symbol (R11, R22). -/
abbrev Fwd := Vector (Option Byte) 32

/-- The reverse table: per code-identity INVALID (`none`) or a 5-bit value (R11, R23). -/
abbrev Rev := Vector (Option Value) 75

/-- The written bytes of the IN and OUT windows by block address, addresses strictly rising. An address
with no cell holds no written byte (log 12). -/
abbrev Memory := List Host.Cell

/-- The width of a host access: 1, 2 or 4 bytes (R52). -/
inductive Width where
  | byte
  | half
  | word
  deriving DecidableEq, Repr

/-- One operation of the host on the block (R52, R78, R230; log 5). -/
inductive HostOp where
  /-- `MemRead(a, n)` (R52). -/
  | read (a : Addr) (n : Width)
  /-- `MemWrite(a, n, v)`, `v` in the low `8n` bits of the word (R52). -/
  | write (a : Addr) (n : Width) (v : Word)
  /-- `WAIT`: `RD32 0x000004`, repeated until bit 0 of the value read is 0 (R78; log 14). -/
  | waitIdle
  /-- The reset input is asserted (R230; log 10). -/
  | reset
  deriving DecidableEq, Repr

/-- What one host read returned (R52; log 6). -/
structure ReadResult where
  addr : Addr
  width : Width
  /-- The `8n`-bit value, zero-extended. -/
  value : Word
  deriving DecidableEq, Repr

/-- The command in execution: its word, and how many host turns pass before it completes (R200, R201,
R235; log 4). -/
structure Executing where
  word : Word
  wait : Nat
  deriving DecidableEq, Repr

/-- All that the spec gives the block (10_state.md), and below `outLen` the model's own fields. -/
structure State where
  /-- IN_MAX, OUT_MAX (CAP_IN_MAX, CAP_OUT_MAX) and NAME_PLACEHOLDER (R5, R35): no step changes them. -/
  params : Params
  /-- FWD (R22). -/
  fwd : Fwd
  /-- REV (R23). -/
  rev : Rev
  /-- PAD (R24). -/
  pad : Bool
  /-- NAME (R25). -/
  name : List Byte
  /-- NAME_SET (R25). -/
  nameSet : Bool
  /-- PHASE (R26). -/
  phase : Phase
  /-- CFG_CAUSE (R27). -/
  cfgCause : CfgCause
  /-- STATUS.ERR (R32, R202). -/
  err : ErrCode
  /-- BUSY is 1 exactly when a command is executing (R28, R200; log 11). -/
  engine : Option Executing
  /-- The written bytes of IN and OUT (R29, R30, R57, R58, R61). -/
  mem : Memory
  /-- IN_LEN (R33). -/
  inLen : Word
  /-- OUT_LEN (R34). -/
  outLen : Word
  /-- MODEL'S OWN: the host's operations still to come, oldest first (log 5). -/
  hostOps : List HostOp
  /-- MODEL'S OWN: what the host's reads returned, newest first (log 6). -/
  reads : List ReadResult
  /-- MODEL'S OWN: the number of resets so far, which picks the draw of the unwritten bytes (log 2). -/
  epoch : Nat
  /-- MODEL'S OWN: the number of commands issued so far, which with the command and IN_LEN picks the draw of the
  delay (log 4). -/
  issues : Nat
  deriving DecidableEq, Repr

/-- The reasons to stop with a fault. No run reaches either: they make `exec` total on states that
break `State.Inv` (log 9). -/
inductive Fault where
  /-- ENCODE looks up a forward entry that is INVALID: "the lookup never meets `INVALID`" (R130, R36).
  Raised by `execEncode`. Safe: nothing is claimed of what follows. -/
  | forwardEntryInvalid
  /-- A result is longer than OUT_MAX: "no command can overflow OUT" (R5). Raised by ENCODE, DECODE,
  GET_NAME and GET_PADDING through `emitResult`. Safe: nothing is claimed of what follows. -/
  | outOverflow
  deriving DecidableEq, Repr

/-- The reasons to refuse a step. -/
inductive Refusal where
  /-- An instruction that has no meaning yet, by its mnemonic. Raised by no arm. Safe. -/
  | notModelled (mnemonic : String)
  /-- A host access that breaks R52: "A model refuses such an access: the host agent has no step" (R53,
  U8). Raised by `hostTurn`. Safe: such programs are outside every claim. -/
  | accessNotAllowed
  /-- A host write to CMD, IN_LEN or an IN byte while BUSY = 1: "a model refuses it, giving the host no
  such step" (R233, U7). Raised by `hostWrite`. Safe: such programs are outside every claim. -/
  | writeWhileBusy
  deriving DecidableEq, Repr

/-- The state after reset (R39), on a block with the free parameters of Config. NAME, which R39 leaves
unspecified, and the model's own fields have the values logs 2 to 6 name. -/
def State.reset : State where
  params := Config.params
  fwd := Vector.replicate 32 none
  rev := Vector.replicate 75 none
  pad := false
  name := []
  nameSet := false
  phase := .building
  cfgCause := CfgCause.none
  err := .ok
  engine := none
  mem := []
  inLen := 0
  outLen := 0
  hostOps := []
  reads := []
  epoch := 0
  issues := 0

/-- What every step answers. -/
abbrev Answer := Host.Outcome State Fault Refusal

end Sys2Proof.Machine
end

