-- ==== Sys2Proof/Machine/Ops.lean ====
section
/-! DEFINITION. The named operations the meanings share: the written bytes of the windows, the engine's
`InRead` and `OutWrite` (20_memory.md R59), and how a command ends (60_exceptions.md R200 to R204). The
block has no trap entry and no return from one (R212, R213): an error is a STATUS code, written by
`raiseError`. -/

namespace Sys2Proof.Machine

/-- What an address without a cell reads as: no written byte (log 12). -/
def Memory.unlisted : Option Byte := none

/-- The byte written at an address, if one was. -/
def Memory.read : Memory → Nat → Option Byte
  | [], _ => Memory.unlisted
  | c :: m, a => if c.1 = a then some c.2 else Memory.read m a

/-- Write one byte and keep the addresses strictly rising. -/
def Memory.write : Memory → Nat → Byte → Memory
  | [], a, v => [(a, v)]
  | c :: m, a, v =>
    if a < c.1 then (a, v) :: c :: m
    else if a = c.1 then (a, v) :: m
    else c :: Memory.write m a v

/-- Write bytes at consecutive addresses from `a` up. -/
def Memory.writeBytes : Memory → Nat → List Byte → Memory
  | m, _, [] => m
  | m, a, b :: bs => Memory.writeBytes (m.write a b) (a + 1) bs

/-- The canonical form: addresses strictly rising. No cell can equal what an unlisted address reads as,
which is no written byte (log 12). -/
abbrev Memory.wf (m : Memory) : Prop := m.Pairwise fun c d => c.1 < d.1

/-- Block address of `IN[0]` (R51). -/
def inBase : Nat := 0x100000

/-- Block address of `OUT[0]` (R51). -/
def outBase : Nat := 0x200000

/-- The byte at a block address of the windows: the written one, else the free draw of R61. -/
def State.readByte (s : State) (a : Nat) : Byte :=
  (s.mem.read a).getD (Config.unwrittenByte s.epoch a)

/-- `InRead(i)`: `IN[i]` (R59). -/
def State.inByte (s : State) (i : Nat) : Byte := s.readByte (inBase + i)

/-- `OUT[i]` (R58). -/
def State.outByte (s : State) (i : Nat) : Byte := s.readByte (outBase + i)

/-- `OutWrite(i, T[i])` for every `i`, then `OUT_LEN <- len(T)` (R59, R130). -/
def State.storeOut (s : State) (t : List Byte) : State :=
  { s with mem := s.mem.writeBytes outBase t, outLen := BitVec.ofNat 32 t.length }

/-- Is a command executing? `BUSY` (R28). -/
def State.busy (s : State) : Bool := s.engine.isSome

/-- `complete(OK)`: ERR is OK and BUSY falls, together with what `s` already holds (R63, R200, R201). -/
def completeOk (s : State) : State := { s with err := .ok, engine := none }

/-- `raise <Error>()`: ERR is the code and BUSY falls; nothing else is written (R201, R203). -/
def raiseError (e : ErrCode) (s : State) : State := { s with err := e, engine := none }

/-- A command in FAULT is ignored: no state changes, BUSY is 0 (R200, R210; log 9). -/
def ignoreCommand (s : State) : State := { s with engine := none }

/-- The rule of a command in a phase other than FAULT; in FAULT the command is ignored (R204 item 1). -/
def unlessFault (s : State) (k : Answer) : Answer :=
  if s.phase = .fault then .next (ignoreCommand s) else k

/-- ERR_ILLEGAL (R204 item 2, R205): no other change. -/
def rejectIllegal (s : State) : Answer := unlessFault s (.next (raiseError .illegal s))

/-- The phase check (R204 item 3, R206): `k` in phase `ph`, ERR_PHASE in the other one. -/
def inPhase (ph : Phase) (s : State) (k : Answer) : Answer :=
  unlessFault s (if s.phase = ph then k else .next (raiseError .phase s))

/-- The end of a command that produces output: the result goes to OUT and OUT_LEN, ERR is OK. The spec
has no result longer than OUT_MAX (R5; log 9). -/
def emitResult (t : List Byte) (s : State) : Answer :=
  if t.length ≤ s.params.outMax then .next (completeOk (s.storeOut t)) else .fault .outOverflow

end Sys2Proof.Machine
end

