-- ==== Sys2Proof/Machine/Operands.lean ====
section
/-! DEFINITION. Operands: the data operand `IN[0..IN_LEN)` and its length rules (30_encoding.md R73,
60_exceptions.md R207), Symbols and code-identities (00_scope.md R12, R13), and the two lookup tables'
accesses (10_state.md R22, R23). -/

namespace Sys2Proof.Machine

/-- `'='`, the padding character (R6; ASCII, G1). -/
def padChar : Byte := 0x3D

/-- `isSymbol(b)`: `0x30 <= b <= 0x7A` (R13). -/
def isSymbol (b : Byte) : Bool := decide (0x30 ≤ b.toNat ∧ b.toNat ≤ 0x7A)

/-- `cid(b)`: the code-identity `b - 0x30`, or out of range (`none`) (R12). -/
def cid (b : Byte) : Option (Fin 75) :=
  if h : 0x30 ≤ b.toNat ∧ b.toNat ≤ 0x7A then some ⟨b.toNat - 0x30, by omega⟩ else none

/-- `FWD[v]` (R22). -/
def Fwd.get (f : Fwd) (v : Value) : Option Byte := f[v.toNat]'v.isLt

/-- `FWD[v] <- Sym(b)` (R22). -/
def Fwd.put (f : Fwd) (v : Value) (b : Byte) : Fwd := f.set v.toNat (some b) v.isLt

/-- `REV[c]` (R23). -/
def Rev.get (r : Rev) (c : Fin 75) : Option Value := r[c.val]'c.isLt

/-- `REV[c] <- Val(v)` (R23). -/
def Rev.put (r : Rev) (c : Fin 75) (v : Value) : Rev := r.set c.val (some v) c.isLt

/-- `REV[cid(b)] <- Val(v)`; a byte that is not a Symbol is skipped (R104, R105). -/
def Rev.putSymbol (r : Rev) (b : Byte) (v : Value) : Rev :=
  match cid b with
  | some c => r.put c v
  | none => r

/-- The value a byte of a text decodes to, if it has one: in range, with a REV entry (R153). -/
def Rev.lookup (r : Rev) (b : Byte) : Option Value := (cid b).bind r.get

/-- The first `n` bytes of IN. -/
def State.inBytes (s : State) (n : Nat) : List Byte := (List.range n).map s.inByte

/-- The data operand `IN[0..IN_LEN)` (R29, R73). -/
def State.operand (s : State) : List Byte := s.inBytes s.inLen.toNat

/-- The result `OUT[0..OUT_LEN)` (R30). -/
def State.result (s : State) : List Byte := (List.range s.outLen.toNat).map s.outByte

/-- The length rule `IN_LEN <= IN_MAX`, else ERR_LENGTH (R73, R207). -/
def withOperand (s : State) (k : List Byte → Answer) : Answer :=
  if s.inLen.toNat ≤ s.params.inMax then k s.operand else .next (raiseError .length s)

/-- The length rule of DECLARE_MAPPING, `IN_LEN = 32`, else ERR_LENGTH (R73, R104, R207). A block whose
IN has fewer than 32 bytes cannot hold the operand: `IN_LEN > IN_MAX` is ERR_LENGTH there too, as R33 and
R202 say of every data-operand command (log 7). -/
def withMappingOperand (s : State) (k : List Byte → Answer) : Answer :=
  if s.inLen = 32 then withOperand s k else .next (raiseError .length s)

end Sys2Proof.Machine
end

