-- ==== Sys2Proof/Machine/Accessors.lean ====
section
/-! DEFINITION. The accessor commands GET_NAME and GET_PADDING (43_accessors.md R180, R181). -/

namespace Sys2Proof.Machine

/-- The name GET_NAME returns: NAME when NAME_SET = 1, else NAME_PLACEHOLDER (R180). -/
def State.shownName (s : State) : List Byte :=
  if s.nameSet then s.name else s.params.namePlaceholder

/-- GET_NAME (R180). -/
def execGetName (s : State) : Answer := inPhase .frozen s <| emitResult s.shownName s

/-- `zext_8(PAD)` (R181). -/
def paddingByte (pad : Bool) : Byte := (BitVec.ofBool pad).setWidth 8

/-- GET_PADDING (R181). -/
def execGetPadding (s : State) : Answer := inPhase .frozen s <| emitResult [paddingByte s.pad] s

end Sys2Proof.Machine
end

