-- ==== Sys2Proof/Machine/Flags.lean ====
section
/-! DEFINITION. The STATUS word and its fields (10_state.md R32), and the alphabet invariants FINALIZE
records in CFG_CAUSE (40_builder.md R106). The block has no condition codes (R37). -/

namespace Sys2Proof.Machine

/-- PHASE as STATUS bits 2:1 show it (R26). -/
def Phase.bits : Phase → BitVec 2
  | .building => 0b00
  | .frozen => 0b01
  | .fault => 0b10

/-- ERR as STATUS bits 7:4 show it (R202). -/
def ErrCode.bits : ErrCode → BitVec 4
  | .ok => 0
  | .illegal => 1
  | .phase => 2
  | .length => 3
  | .decode => 4
  | .config => 5

/-- CFG_CAUSE as STATUS bits 10:8 show it (R27, R32). -/
def CfgCause.bits (c : CfgCause) : BitVec 3 :=
  (BitVec.ofBool c.padNotZero ++ BitVec.ofBool c.revNotSurjective) ++ BitVec.ofBool c.fwdIncomplete

/-- STATUS (R32): bits 31:12 are hardwired 0. -/
def State.statusWord (s : State) : Word :=
  ((((((0 : BitVec 20) ++ BitVec.ofBool s.nameSet) ++ s.cfgCause.bits) ++ s.err.bits) ++
    BitVec.ofBool s.pad) ++ s.phase.bits) ++ BitVec.ofBool s.busy

/-- FWD_INCOMPLETE: some `FWD[i]` is INVALID (R106). -/
def Fwd.incomplete (f : Fwd) : Bool := f.toList.any Option.isNone

/-- Some `REV[c]` is `Val(v)` (R106). -/
def Rev.holds (r : Rev) (v : Value) : Bool := r.toList.any fun e => e == some v

/-- The 5-bit values `0..31` in increasing order. -/
def allValues : List Value := (List.range 32).map (BitVec.ofNat 5)

/-- REV_NOT_SURJECTIVE: some value is held by no REV entry (R106). -/
def Rev.notSurjective (r : Rev) : Bool := allValues.any fun v => !r.holds v

/-- The index of `'='` in REV (R12: `cid('=') = 13`). -/
def padCid : Fin 75 := 13

/-- PAD_NOT_ZERO: `PAD = 1` and `REV[13]` is not `Val(0)` (R106). -/
def padNotZero (pad : Bool) (r : Rev) : Bool := pad && !(r.get padCid == some 0)

/-- The cause FINALIZE computes: every violated invariant sets its bit (R27, R106). -/
def State.finalizeCause (s : State) : CfgCause where
  fwdIncomplete := s.fwd.incomplete
  revNotSurjective := s.rev.notSurjective
  padNotZero := padNotZero s.pad s.rev

end Sys2Proof.Machine
end

