-- ==== Sys2Proof/Machine/Builder.lean ====
section
/-! DEFINITION. The builder commands NEW, SET_NAME, SET_PADDING, DECLARE_MAPPING, DECLARE_ALIASES and
FINALIZE (40_builder.md R100 to R106). -/

namespace Sys2Proof.Machine

/-- The slot as NEW leaves it (R101). NAME keeps its bytes, which nothing can observe while
NAME_SET = 0 (R25; log 3). -/
def State.freshSlot (s : State) : State :=
  { s with
    fwd := Vector.replicate 32 none
    rev := Vector.replicate 75 none
    pad := false
    nameSet := false
    cfgCause := CfgCause.none
    phase := .building }

/-- NEW (R101): executes in BUILDING and in FROZEN. -/
def execNew (s : State) : Answer := unlessFault s (.next (completeOk s.freshSlot))

/-- SET_NAME (R102). -/
def execSetName (s : State) : Answer :=
  inPhase .building s <| withOperand s fun label =>
    .next (completeOk { s with name := label, nameSet := true })

/-- SET_PADDING (R103): EN = 1 also registers `'='` as value 0; EN = 0 leaves REV as it is (D14). -/
def execSetPadding (en : Bool) (s : State) : Answer :=
  inPhase .building s <|
    .next (completeOk { s with pad := en, rev := if en then s.rev.put padCid 0 else s.rev })

/-- One position of DECLARE_MAPPING (R104): a byte that is not a Symbol skips the position; a Symbol
overwrites its REV entry, and sets the FWD entry if that is INVALID. -/
def declarePosition (i : Value) (b : Byte) (t : Fwd × Rev) : Fwd × Rev :=
  if isSymbol b then
    (if t.1.get i = none then t.1.put i b else t.1, t.2.putSymbol b i)
  else t

/-- The positions of DECLARE_MAPPING in increasing order (R104), from position `i` up. -/
def declareFrom : Nat → List Byte → Fwd × Rev → Fwd × Rev
  | _, [], t => t
  | i, b :: bs, t => declareFrom (i + 1) bs (declarePosition (BitVec.ofNat 5 i) b t)

/-- DECLARE_MAPPING (R104). -/
def execDeclareMapping (s : State) : Answer :=
  inPhase .building s <| withMappingOperand s fun symbols =>
    let t := declareFrom 0 symbols (s.fwd, s.rev)
    .next (completeOk { s with fwd := t.1, rev := t.2 })

/-- DECLARE_ALIASES (R105): every Symbol of the operand, in increasing order, gets the value. -/
def execDeclareAliases (val : Value) (s : State) : Answer :=
  inPhase .building s <| withOperand s fun symbols =>
    .next (completeOk { s with rev := symbols.foldl (fun r b => r.putSymbol b val) s.rev })

/-- FINALIZE (R106): FROZEN when no invariant is violated, else FAULT with the causes and ERR_CONFIG. -/
def execFinalize (s : State) : Answer :=
  inPhase .building s <|
    if s.finalizeCause = CfgCause.none then .next (completeOk { s with phase := .frozen })
    else .next (raiseError .config { s with cfgCause := s.finalizeCause, phase := .fault })

end Sys2Proof.Machine
end

