-- ==== Sys2Proof/Machine/Codec.lean ====
section
/-! DEFINITION. The commands ENCODE (41_encode.md R130 to R135) and DECODE (42_decode.md R150 to R161)
with the functions their pseudocode calls. -/

namespace Sys2Proof.Machine

/-- The chunks of `k` elements, the last one shorter if the length is no multiple of `k`: chunk `c` is
elements `k*c` to `min(k*c + k, n) - 1` (R130, R154). -/
def chunksOf {α : Type} (k : Nat) (l : List α) : List (List α) :=
  (List.range ((l.length + k - 1) / k)).map fun c => (l.drop (k * c)).take k

/-- `W = {c[0], c[1], c[2], c[3], c[4]}`, missing bytes zero (R132). -/
def chunkWord (c : List Byte) : BitVec 40 :=
  (((c.getD 0 0 ++ c.getD 1 0) ++ c.getD 2 0) ++ c.getD 3 0) ++ c.getD 4 0

/-- `g[j] = W[39 - 5j : 35 - 5j]` (R132). -/
def groupOf (w : BitVec 40) (j : Nat) : Value := w.extractLsb' (35 - 5 * j) 5

/-- `genuine(r) = ceil(r*8 / 5)` (R133). -/
def genuine (r : Nat) : Nat := (r * 8 + 4) / 5

/-- The symbols of one chunk: its genuine groups through FWD, then `'='` for the fillers when PAD is 1
(R130, R134). No answer when a lookup meets INVALID. -/
def encodeChunk (f : Fwd) (pad : Bool) (c : List Byte) : Option (List Byte) :=
  let m := genuine c.length
  ((List.range m).mapM fun j => f.get (groupOf (chunkWord c) j)).map fun syms =>
    syms ++ (if pad then List.replicate (8 - m) padChar else [])

/-- The text ENCODE produces (R130). -/
def encodeText (f : Fwd) (pad : Bool) (data : List Byte) : Option (List Byte) :=
  ((chunksOf 5 data).mapM (encodeChunk f pad)).map List.flatten

/-- ENCODE (R130). -/
def execEncode (s : State) : Answer :=
  inPhase .frozen s <| withOperand s fun data =>
    match encodeText s.fwd s.pad data with
    | some t => emitResult t s
    | none => .fault .forwardEntryInvalid

/-- Drop at most `k` leading `'='`, stopping at the first byte that is not one. -/
def dropPad : Nat → List Byte → List Byte
  | 0, l => l
  | _, [] => []
  | k + 1, b :: l => if b = padChar then dropPad k l else b :: l

/-- `unpadded(text)`: the symbol count without at most 6 trailing `'='` (R151). -/
def unpadded (text : List Byte) : Nat := (dropPad 6 text.reverse).length

/-- `N = (u * 5) / 8` (R152). -/
def decodedLength (text : List Byte) : Nat := unpadded text * 5 / 8

/-- `{s[0], ..., s[7]}`, unfilled slots zero (R154). -/
def valuesWord (v : List Value) : BitVec 40 :=
  ((((((v.getD 0 0 ++ v.getD 1 0) ++ v.getD 2 0) ++ v.getD 3 0) ++ v.getD 4 0) ++ v.getD 5 0) ++
    v.getD 6 0) ++ v.getD 7 0

/-- `unpack(s) = [W[39:32], W[31:24], W[23:16], W[15:8], W[7:0]]` (R154). -/
def unpack (v : List Value) : List Byte :=
  (List.range 5).map fun t => (valuesWord v).extractLsb' (32 - 8 * t) 8

/-- The bytes DECODE produces, or no answer when a byte of the text fails R153 (R150 to R155). Every byte
of the text is looked up, trailing `'='` included. -/
def decodeText (r : Rev) (text : List Byte) : Option (List Byte) :=
  (text.mapM r.lookup).map fun v =>
    ((chunksOf 8 v).map unpack).flatten.take (decodedLength text)

/-- DECODE (R150). -/
def execDecode (s : State) : Answer :=
  inPhase .frozen s <| withOperand s fun text =>
    match decodeText s.rev text with
    | some d => emitResult d s
    | none => .next (raiseError .decode s)

end Sys2Proof.Machine
end

