-- ==== Sys2Proof/Machine/Dispatch.lean ====
section
/-! DEFINITION. The execution of a command to its completion: one arm per command of the opcode map
(30_encoding.md R74). -/

namespace Sys2Proof.Machine

def exec (i : Instr) (s : State) : Host.Outcome State Fault Refusal :=
  match i with
  | .new => Sys2Proof.Machine.execNew s
  | .setName => Sys2Proof.Machine.execSetName s
  | .setPadding en => Sys2Proof.Machine.execSetPadding en s
  | .declareMapping => Sys2Proof.Machine.execDeclareMapping s
  | .declareAliases val => Sys2Proof.Machine.execDeclareAliases val s
  | .finalize => Sys2Proof.Machine.execFinalize s
  | .encode => Sys2Proof.Machine.execEncode s
  | .decode => Sys2Proof.Machine.execDecode s
  | .getName => Sys2Proof.Machine.execGetName s
  | .getPadding => Sys2Proof.Machine.execGetPadding s

end Sys2Proof.Machine
end

