-- ==== Sys2Proof/WellFormed.lean ====
section
/-! DEFINITION. What the spec requires of the data it is given: the constraints of R5 on the parameters,
and the operand ranges of a command. -/

namespace Sys2Proof

/-- The constraints of R5 on the parameters. -/
abbrev Params.Valid (p : Params) : Prop :=
  1 ≤ p.inMax ∧ p.inMax ≤ 2 ^ 20 ∧ p.outMax ≤ 2 ^ 20 ∧
    maxEncodedLength p.inMax ≤ p.outMax ∧ p.namePlaceholder.length ≤ p.outMax

/-- Is the command one a word can express? EN is one bit and VAL five bits wide, and the operand types
say so, so no command term is ill formed: "a value outside `0..31` cannot be expressed" (R72). -/
def Instr.wellFormed : Instr → Bool
  | .new => true
  | .setName => true
  | .setPadding _ => true
  | .declareMapping => true
  | .declareAliases _ => true
  | .finalize => true
  | .encode => true
  | .decode => true
  | .getName => true
  | .getPadding => true

end Sys2Proof
end

