-- ==== Sys2Proof/Decode.lean ====
section
/-! DEFINITION. The command decoder, total on every 32-bit word (30_encoding.md R75), rejecting by name
(R76), then the encoder, written from the same tables (R71, R74). -/

namespace Sys2Proof

/-- Why a word is illegal (R75, R76), in the order in which the spec tests. -/
inductive Illegal where
  /-- `w[3:0]` is `0x0` or `0xB..0xF`. -/
  | reservedOpcode
  /-- A bit that the format shows as 0 is 1. -/
  | reservedBits
  deriving DecidableEq, Repr

/-- `OPC = w[3:0]` (R71). -/
def opcodeField (w : Word) : BitVec 4 := w.extractLsb' 0 4

/-- Format N: bits 31:4 are reserved (R71). -/
def decodeFormatN (w : Word) (i : Instr) : Except Illegal Instr :=
  if w.extractLsb' 4 28 = 0 then .ok i else .error .reservedBits

/-- Format P: `EN = w[4]`, bits 31:5 are reserved (R71, R72). -/
def decodeFormatP (w : Word) (f : Bool → Instr) : Except Illegal Instr :=
  if w.extractLsb' 5 27 = 0 then .ok (f (w.getLsbD 4)) else .error .reservedBits

/-- Format V: `VAL = w[8:4]`, bits 31:9 are reserved (R71, R72). -/
def decodeFormatV (w : Word) (f : Value → Instr) : Except Illegal Instr :=
  if w.extractLsb' 9 23 = 0 then .ok (f (w.extractLsb' 4 5)) else .error .reservedBits

/-- The opcode map (R74) and the order of R75: the opcode first, then the reserved bits. -/
def decode (w : Word) : Except Illegal Instr :=
  match (opcodeField w).toNat with
  | 0x1 => decodeFormatN w .new
  | 0x2 => decodeFormatN w .setName
  | 0x3 => decodeFormatP w .setPadding
  | 0x4 => decodeFormatN w .declareMapping
  | 0x5 => decodeFormatV w .declareAliases
  | 0x6 => decodeFormatN w .finalize
  | 0x7 => decodeFormatN w .encode
  | 0x8 => decodeFormatN w .decode
  | 0x9 => decodeFormatN w .getName
  | 0xA => decodeFormatN w .getPadding
  | _ => .error .reservedOpcode

/-- The opcode of a command (R74). -/
def Instr.opcode : Instr → BitVec 4
  | .new => 0x1
  | .setName => 0x2
  | .setPadding _ => 0x3
  | .declareMapping => 0x4
  | .declareAliases _ => 0x5
  | .finalize => 0x6
  | .encode => 0x7
  | .decode => 0x8
  | .getName => 0x9
  | .getPadding => 0xA

/-- A word of format N (R71). -/
def encodeFormatN (opc : BitVec 4) : Word := (0 : BitVec 28) ++ opc

/-- A word of format P (R71). -/
def encodeFormatP (opc : BitVec 4) (en : Bool) : Word :=
  ((0 : BitVec 27) ++ BitVec.ofBool en) ++ opc

/-- A word of format V (R71). -/
def encodeFormatV (opc : BitVec 4) (val : Value) : Word := ((0 : BitVec 23) ++ val) ++ opc

/-- The word of a command (R71, R74). -/
def encode (i : Instr) : Word :=
  match i with
  | .setPadding en => encodeFormatP i.opcode en
  | .declareAliases val => encodeFormatV i.opcode val
  | .new => encodeFormatN i.opcode
  | .setName => encodeFormatN i.opcode
  | .declareMapping => encodeFormatN i.opcode
  | .finalize => encodeFormatN i.opcode
  | .encode => encodeFormatN i.opcode
  | .decode => encodeFormatN i.opcode
  | .getName => encodeFormatN i.opcode
  | .getPadding => encodeFormatN i.opcode

/-- The command word an opcode-table row's bits stand for: bit 0 is the table's bit 0, and every bit from
`nbits` on is 0. A command is one 32-bit word (R70), so the bits are the word (log 13). -/
def tableWord (nbits w : Nat) : Word := BitVec.ofNat 32 (w % 2 ^ nbits)

/-- What the decoder reads from a word given by the opcode table's bits (log 13). -/
def decodeTableWord (nbits w : Nat) : Option Instr := (decode (tableWord nbits w)).toOption

end Sys2Proof
end

