-- ==== Sys2Proof/Machine/HostBus.lean ====
section
/-! DEFINITION. The host's accesses of the block address space (20_memory.md R50 to R58, R62), the issue of
a command (60_exceptions.md R200), the hazard (70_reset_and_hazards.md R233) and the reset input (R230). -/

namespace Sys2Proof.Machine

/-- The number of bytes of an access (R52). -/
def Width.bytes : Width → Nat
  | .byte => 1
  | .half => 2
  | .word => 4

/-- Where an allowed access falls (R51). -/
inductive Region where
  | cmd
  | status
  | inLen
  | outLen
  | capInMax
  | capOutMax
  /-- The access starts at `IN[i]`. -/
  | inWindow (i : Nat)
  /-- The access starts at `OUT[i]`. -/
  | outWindow (i : Nat)
  | reserved
  deriving DecidableEq, Repr

/-- The register at an offset below `0x000018` (R51). -/
def registerAt (a : Nat) : Region :=
  match a with
  | 0x00 => .cmd
  | 0x04 => .status
  | 0x08 => .inLen
  | 0x0C => .outLen
  | 0x10 => .capInMax
  | 0x14 => .capOutMax
  | _ => .reserved

/-- The region of an access that satisfies R52, and no answer for one that does not: a misaligned access,
a register access of width 1 or 2, a window access that runs past the end of its window (R53). A
misaligned access is refused in the reserved ranges too (log 8). -/
def regionOf (p : Params) (a : Nat) (n : Width) : Option Region :=
  if a % n.bytes ≠ 0 then none
  else if a < 0x18 then (if n = .word then some (registerAt a) else none)
  else if inBase ≤ a ∧ a < inBase + p.inMax then
    (if a + n.bytes ≤ inBase + p.inMax then some (.inWindow (a - inBase)) else none)
  else if outBase ≤ a ∧ a < outBase + p.outMax then
    (if a + n.bytes ≤ outBase + p.outMax then some (.outWindow (a - outBase)) else none)
  else some .reserved

/-- Bytes to a value, little-endian: the byte at `a + k` is bits `8k+7:8k` (R54). -/
def leValue (f : Nat → Byte) : Width → Word
  | .byte => (f 0).setWidth 32
  | .half => (f 1 ++ f 0).setWidth 32
  | .word => (((f 3 ++ f 2) ++ f 1) ++ f 0)

/-- The bytes of an `n`-byte value, little-endian (R54). -/
def leBytes (v : Word) (n : Width) : List Byte :=
  (List.range n.bytes).map fun k => v.extractLsb' (8 * k) 8

/-- The value of a host read (R31 to R35, R55 to R58); it has no side effect (R62). -/
def State.readRegion (s : State) (r : Region) (n : Width) : Word :=
  match r with
  | .cmd => 0
  | .status => s.statusWord
  | .inLen => s.inLen
  | .outLen => s.outLen
  | .capInMax => BitVec.ofNat 32 s.params.inMax
  | .capOutMax => BitVec.ofNat 32 s.params.outMax
  | .inWindow i => leValue (fun k => s.inByte (i + k)) n
  | .outWindow i => leValue (fun k => s.outByte (i + k)) n
  | .reserved => 0

/-- `MemRead(a, n)`, when the access is allowed (R52). -/
def State.memRead (s : State) (a : Addr) (n : Width) : Option Word :=
  (regionOf s.params a.toNat n).map fun r => s.readRegion r n

/-- A CMD write with BUSY = 0 (R200): ignored in FAULT; else BUSY rises and the engine has the word, to
complete after a free number of host turns, which may depend on the command and on IN_LEN (R235).
DESIGN CHOICE (log 4): the number is drawn here, at the issue, by the issue's number, the word and IN_LEN. -/
def issueCommand (w : Word) (s : State) : State :=
  if s.phase = .fault then s
  else { s with
    engine := some ⟨w, Config.completionDelay s.issues w s.inLen⟩
    issues := s.issues + 1 }

/-- A write the host must not do while BUSY = 1 (R233). -/
def unlessBusy (s : State) (t : State) : Answer :=
  if s.busy then .refused .writeWhileBusy else .next t

/-- The effect of an allowed host write (R55, R56, R57, R58, R200, R233). -/
def hostWrite (r : Region) (n : Width) (v : Word) (s : State) : Answer :=
  match r with
  | .cmd => unlessBusy s (issueCommand v s)
  | .inLen => unlessBusy s { s with inLen := v }
  | .inWindow i => unlessBusy s { s with mem := s.mem.writeBytes (inBase + i) (leBytes v n) }
  | .status => .next s
  | .outLen => .next s
  | .capInMax => .next s
  | .capOutMax => .next s
  | .outWindow _ => .next s
  | .reserved => .next s

/-- Reset (R230): every piece of state takes its value of R39 and an executing command is abandoned. The
parameters are hardwired; IN and OUT are a fresh draw; the host's operations and what it read are not
the block's (log 10). -/
def resetBlock (s : State) : State :=
  { State.reset with
    params := s.params
    hostOps := s.hostOps
    reads := s.reads
    epoch := s.epoch + 1
    issues := s.issues }

/-- The host's read is recorded for it (log 6). -/
def State.recordRead (s : State) (a : Addr) (n : Width) (v : Word) : State :=
  { s with reads := ⟨a, n, v⟩ :: s.reads }

/-- The offset of STATUS (R32). -/
def statusAddr : Addr := 0x000004

/-- One turn of the host (R7, R65): it performs its next operation, or nothing when it has none left. An
access that R52 does not allow has no step (R53). -/
def hostTurn (s : State) : Answer :=
  match s.hostOps with
  | [] => .next s
  | .read a n :: rest =>
    match s.memRead a n with
    | some v => .next { s.recordRead a n v with hostOps := rest }
    | none => .refused .accessNotAllowed
  | .write a n v :: rest =>
    match regionOf s.params a.toNat n with
    | some r => hostWrite r n v { s with hostOps := rest }
    | none => .refused .accessNotAllowed
  | .waitIdle :: rest =>
    let s' := s.recordRead statusAddr .word s.statusWord
    .next (if s.busy then s' else { s' with hostOps := rest })
  | .reset :: rest => .next (resetBlock { s with hostOps := rest })

end Sys2Proof.Machine
end

