-- ==== Sys2Proof/Machine/HostProgram.lean ====
section
/-! DEFINITION. The host program syntax of the spec (30_encoding.md R77) and its pseudo-instructions with
their expansions (R78). -/

namespace Sys2Proof.Machine

/-- One line of a host program (R77, R78). -/
inductive HostLine where
  /-- `WR32 a, v` -/
  | wr32 (a : Addr) (v : Word)
  /-- `WR8 a, v` -/
  | wr8 (a : Addr) (v : Byte)
  /-- `RD32 a` -/
  | rd32 (a : Addr)
  /-- A command mnemonic: it issues the command and does not wait. -/
  | issue (i : Instr)
  /-- `LOADIN` of a byte string -/
  | loadIn (data : List Byte)
  /-- `WAIT` -/
  | wait
  /-- `RUN <command>` -/
  | run (i : Instr)
  /-- `CHECK ERR = k`: a read of STATUS; the expected value is an assertion for the reader. -/
  | check (k : Nat)
  deriving DecidableEq, Repr

/-- The offset of CMD (R31). -/
def cmdAddr : Addr := 0x000000

/-- The offset of IN_LEN (R33). -/
def inLenAddr : Addr := 0x000008

/-- The bus write that issues a command (R77). -/
def issueOp (i : Instr) : HostOp := .write cmdAddr .word (encode i)

/-- The byte writes of `LOADIN`, from `IN[i]` up (R78). -/
def loadBytesFrom : Nat → List Byte → List HostOp
  | _, [] => []
  | i, b :: bs => .write (BitVec.ofNat 24 (inBase + i)) .byte (b.setWidth 32) :: loadBytesFrom (i + 1) bs

/-- The bus operations of a line (R77, R78). -/
def HostLine.expand : HostLine → List HostOp
  | .wr32 a v => [.write a .word v]
  | .wr8 a v => [.write a .byte (v.setWidth 32)]
  | .rd32 a => [.read a .word]
  | .issue i => [issueOp i]
  | .loadIn data => loadBytesFrom 0 data ++ [.write inLenAddr .word (BitVec.ofNat 32 data.length)]
  | .wait => [.waitIdle]
  | .run i => [issueOp i, .waitIdle]
  | .check _ => [.read statusAddr .word]

/-- A block with the given parameters right after reset, and a host with a program to run on it. -/
def State.startProgram (p : Params) (lines : List HostLine) : State :=
  { State.reset with params := p, hostOps := lines.flatMap HostLine.expand }

end Sys2Proof.Machine
end

