-- ==== Sys2Proof/Machine/Step.lean ====
section
/-! DEFINITION. One step of the machine: the executing command completes, or the host takes a turn
(00_scope.md R7; 60_exceptions.md R200; 70_reset_and_hazards.md R235). -/

namespace Sys2Proof.Machine

/-- The engine executes the word it was given: decode it, then the rule of its command (R200), or
ERR_ILLEGAL (R205). -/
def runWord (w : Word) (s : State) : Answer :=
  match decode w with
  | .ok i => exec i s
  | .error _ => rejectIllegal s

/-- One step. A command that has no host turn left to wait completes, at one instant (R63). Until then,
and when no command executes, the host takes its turn. -/
def step (s : State) : Host.Outcome State Fault Refusal :=
  match s.engine with
  | some ⟨w, 0⟩ => runWord w s
  | some ⟨w, k + 1⟩ => hostTurn { s with engine := some ⟨w, k⟩ }
  | none => hostTurn s

/-- `s` with a command issued and about to complete, so that the very next step runs it: the word stands in
the engine (log 5, log 13). -/
def State.withFetchWord (s : State) (nbits w : Nat) : State :=
  { s with engine := some ⟨tableWord nbits w, 0⟩ }

end Sys2Proof.Machine
end

