-- ==== Sys2Proof/Safety.lean ====
section
/-! DEFINITION. What the claims speak of: the invariant of the block's states, and how a host program's run
ends (70_reset_and_hazards.md R237). -/

namespace Sys2Proof

open Machine

/-- The phases in which a command executes; in the other phase it raises ERR_PHASE (the table of R206). -/
def Instr.allowedIn (i : Instr) (p : Phase) : Bool :=
  match i with
  | .new => decide (p = .building ∨ p = .frozen)
  | .setName | .setPadding _ | .declareMapping | .declareAliases _ | .finalize =>
    decide (p = .building)
  | .encode | .decode | .getName | .getPadding => decide (p = .frozen)

/-- A command that writes OUT and OUT_LEN when it succeeds (R30). -/
def Instr.hasOutput : Instr → Bool
  | .encode | .decode | .getName | .getPadding => true
  | .new | .setName | .setPadding _ | .declareMapping | .declareAliases _ | .finalize => false

/-- An address of the IN or OUT window (R51). -/
def Params.InWindows (p : Params) (a : Nat) : Prop :=
  (inBase ≤ a ∧ a < inBase + p.inMax) ∨ (outBase ≤ a ∧ a < outBase + p.outMax)

end Sys2Proof

namespace Sys2Proof.Machine

/-- The alphabet invariants of a FROZEN slot (R36). -/
structure State.SlotOk (s : State) : Prop where
  /-- every `FWD[i]` is `Sym(_)` -/
  fwdTotal : ∀ v : Value, ∃ b, s.fwd.get v = some b
  /-- every value is held by some REV entry -/
  revOnto : ∀ v : Value, ∃ c : Fin 75, s.rev.get c = some v
  /-- if `PAD = 1` then `REV[13] = Val(0)` -/
  padZero : s.pad = true → s.rev.get padCid = some 0

/-- Every FWD entry that is not INVALID is a Symbol (R22). -/
def Fwd.Symbols (f : Fwd) : Prop := ∀ (v : Value) (b : Byte), f.get v = some b → isSymbol b = true

/-- What every state a run can reach satisfies. -/
structure State.Inv (s : State) : Prop where
  /-- The parameters meet R5. -/
  params : s.params.Valid
  /-- The written bytes are in canonical form (log 12). -/
  memWf : s.mem.wf
  /-- Only window bytes are ever written (R57, R59). -/
  memInWindows : ∀ c ∈ s.mem, Params.InWindows s.params c.1
  /-- NAME has at most IN_MAX bytes (R25). -/
  nameFits : s.name.length ≤ s.params.inMax
  /-- OUT_LEN is at most OUT_MAX (R34). -/
  outLenFits : s.outLen.toNat ≤ s.params.outMax
  /-- FWD holds Symbols (R22). -/
  symbols : s.fwd.Symbols
  /-- A FROZEN slot meets the alphabet invariants (R36). -/
  frozen : s.phase = .frozen → s.SlotOk
  /-- CFG_CAUSE is not 0 exactly in FAULT (R108). -/
  cause : s.cfgCause = CfgCause.none ↔ s.phase ≠ .fault
  /-- ERR is ERR_CONFIG exactly in FAULT (R209, R210). -/
  errConfig : s.err = .config ↔ s.phase = .fault
  /-- No command executes in FAULT: BUSY stays 0 (R210). -/
  idleInFault : s.phase = .fault → s.engine = none

/-- The data byte at index `i`, with the zero bytes that fill up the last chunk (R132). -/
def State.dataByte (s : State) (i : Nat) : Byte := if i < s.inLen.toNat then s.inByte i else 0

/-- The 40-bit word of chunk `k` of the data: `{c[0], ..., c[4]}`, `c[0]` in bits 39:32 (R132). -/
def State.dataWord (s : State) (k : Nat) : BitVec 40 :=
  (((s.dataByte (5 * k) ++ s.dataByte (5 * k + 1)) ++ s.dataByte (5 * k + 2)) ++
    s.dataByte (5 * k + 3)) ++ s.dataByte (5 * k + 4)

/-- The 40-bit word of chunk `k` of 5-bit values: `{s[0], ..., s[7]}`, `s[0]` in bits 39:35 (R154). -/
def chunkOfValues (v : Nat → Value) (k : Nat) : BitVec 40 :=
  ((((((v (8 * k) ++ v (8 * k + 1)) ++ v (8 * k + 2)) ++ v (8 * k + 3)) ++ v (8 * k + 4)) ++
    v (8 * k + 5)) ++ v (8 * k + 6)) ++ v (8 * k + 7)

/-- A byte that DECODE accepts: in range, with a REV entry (R153). -/
def Rev.Accepts (r : Rev) (b : Byte) : Prop := ∃ c v, cid b = some c ∧ r.get c = some v

/-- `u` is the symbol count the scan of R151 leaves of a text of `n` bytes: at most 6 trailing `'='` are
dropped, and the scan stops at the first byte that is not one. -/
def UnpaddedCount (text : Nat → Byte) (n u : Nat) : Prop :=
  u ≤ n ∧ n - u ≤ 6 ∧ (∀ i, u ≤ i → i < n → text i = 0x3D) ∧
    (n - u = 6 ∨ u = 0 ∨ text (u - 1) ≠ 0x3D)

/-- H1 of R159: every canonical symbol decodes to its own value. -/
def State.CanonicalDecodes (s : State) : Prop :=
  ∀ (v : Value) (b : Byte), s.fwd.get v = some b → ∃ c, cid b = some c ∧ s.rev.get c = some v

/-- H2 of R159: `'='` is no canonical symbol. -/
def State.PadNotCanonical (s : State) : Prop := ∀ v : Value, s.fwd.get v ≠ some 0x3D

/-- Bytes outside `OUT[0..n)` read in `t` as they do in `s`. -/
def KeepsBytesBeyond (n : Nat) (s t : State) : Prop :=
  ∀ a, (a < 0x200000 ∨ 0x200000 + n ≤ a) → t.readByte a = s.readByte a

/-- Every field but the written bytes, OUT_LEN, ERR and BUSY is in `t` as it is in `s`. -/
def KeepsAllButResult (s t : State) : Prop :=
  { t with mem := s.mem, outLen := s.outLen, err := s.err, engine := s.engine } = s

/-- It is the host's turn: no command is due to complete (log 4). -/
def State.HostMoves (s : State) : Prop := ∀ w, s.engine ≠ some ⟨w, 0⟩

/-- The state the host's turn works on: an executing command has one host turn less to wait (log 4). -/
def State.ticked (s : State) : State :=
  { s with engine := s.engine.map fun e => ⟨e.word, e.wait - 1⟩ }

/-- A run has ended: the host has no operation left and BUSY = 0 (R237). -/
def State.RunEnded (s : State) : Prop := s.hostOps = [] ∧ s.busy = false

/-- A run has ended and is a faulted one: `PHASE = FAULT` (R237). -/
def State.FaultedRun (s : State) : Prop := s.RunEnded ∧ s.phase = .fault

end Sys2Proof.Machine
end

