-- ==== Sys2Proof/Certificates/Slice0/Obligations.lean ====
section
/-! DEFINITION. The statements for the provers, from the numbered rules of the spec. -/

open Sys2Proof Sys2Proof.Machine

/-! ## Command words -/

/-- The words of R74, and an illegal one of each kind (R76). -/
def Obligations.SpecWordsDecode : Prop :=
  decode 0x00000001 = .ok .new ∧ decode 0x00000002 = .ok .setName ∧
  decode 0x00000003 = .ok (.setPadding false) ∧ decode 0x00000013 = .ok (.setPadding true) ∧
  decode 0x00000004 = .ok .declareMapping ∧ decode 0x00000005 = .ok (.declareAliases 0) ∧
  decode 0x000001F5 = .ok (.declareAliases 31) ∧ decode 0x00000006 = .ok .finalize ∧
  decode 0x00000007 = .ok .encode ∧ decode 0x00000008 = .ok .decode ∧
  decode 0x00000009 = .ok .getName ∧ decode 0x0000000A = .ok .getPadding ∧
  decode 0x00000000 = .error .reservedOpcode ∧ decode 0x0000000F = .error .reservedOpcode ∧
  decode 0x00000023 = .error .reservedBits ∧ decode 0x00000205 = .error .reservedBits

/-- Decoding and encoding agree on every word and every command: each command has exactly one word, and
each legal word exactly one command (R71, R74, R75). -/
def Obligations.DecodeInvertsEncode : Prop :=
  ∀ (w : Word) (i : Instr), i.wellFormed = true → (decode w = .ok i ↔ w = encode i)

/-- R75: the order of decoding, and the command with its fields. -/
def Obligations.DecodingIsTotalInOrder : Prop :=
  ∀ w : Word,
    let opc := w.toNat % 16
    let reservedBits := (opc = 3 ∧ w.toNat / 2 ^ 5 ≠ 0) ∨ (opc = 5 ∧ w.toNat / 2 ^ 9 ≠ 0) ∨
      (opc ≠ 3 ∧ opc ≠ 5 ∧ w.toNat / 2 ^ 4 ≠ 0)
    (opc = 0 ∨ 0xB ≤ opc → decode w = .error .reservedOpcode) ∧
    (1 ≤ opc → opc ≤ 0xA → reservedBits → decode w = .error .reservedBits) ∧
    (1 ≤ opc → opc ≤ 0xA → ¬ reservedBits →
      ∃ i, decode w = .ok i ∧ i.opcode.toNat = opc ∧
        (∀ en, i = .setPadding en → en = w.getLsbD 4) ∧
        (∀ val, i = .declareAliases val → val.toNat = w.toNat / 16 % 32))

/-! ## Issue, execution and completion -/

/-- R205 with R76: a word that does not decode raises ERR_ILLEGAL in BUILDING and in FROZEN, and changes
nothing else. -/
def Obligations.IllegalWordRaisesErrIllegal : Prop :=
  ∀ (s : State) (w : Word) (e : Illegal), s.engine = some ⟨w, 0⟩ → decode w = .error e →
    (s.phase = .building ∨ s.phase = .frozen) →
    step s = .next { s with err := .illegal, engine := none }

/-- A step runs the decoded command: with a command due to complete, the step is its execution. The same
holds of a word placed by `withFetchWord`. -/
def Obligations.StepRunsDecodedCommand : Prop :=
  (∀ (s : State) (w : Word) (i : Instr), s.engine = some ⟨w, 0⟩ → decode w = .ok i →
    step s = exec i s) ∧
  (∀ (s : State) (n : Nat) (i : Instr), decodeTableWord 32 n = some i →
    step (s.withFetchWord 32 n) = exec i (s.withFetchWord 32 n))

/-- R200: a CMD write with BUSY = 0 is ignored in FAULT; else it sets BUSY, and the command completes with
BUSY cleared. The number of host turns in between is a free value (log 4). -/
def Obligations.CommandIssueAndCompletion : Prop :=
  ∀ (s : State) (w : Word) (rest : List HostOp),
    s.engine = none → s.hostOps = .write 0x000000 .word w :: rest →
    (s.phase = .fault → step s = .next { s with hostOps := rest }) ∧
    (s.phase ≠ .fault → ∃ k, step s =
      .next { s with engine := some ⟨w, k⟩, issues := s.issues + 1, hostOps := rest }) ∧
    (∀ u t, u.engine = some ⟨w, 0⟩ → step u = .next t → t.busy = false ∧
      (∀ i, decode w = .ok i → exec i u = .next t) ∧
      (∀ e, decode w = .error e → u.phase ≠ .fault → t = { u with err := .illegal, engine := none }))

/-- While a command executes, a step that is no reset changes no state but the wait, the host's list of
operations and its record of reads: nothing of the command is visible before completion (R28, R63). -/
def Obligations.NothingVisibleBeforeCompletion : Prop :=
  ∀ (s t : State) (w : Word) (k : Nat), s.engine = some ⟨w, k + 1⟩ → step s = .next t →
    (∀ rest, s.hostOps ≠ .reset :: rest) →
    t.engine = some ⟨w, k⟩ ∧
    { t with engine := s.engine, hostOps := s.hostOps, reads := s.reads } = s

/-- A waiting host sees a command complete after finitely many of its own turns: `k` STATUS reads that all
return the pre-command STATUS with BUSY = 1, then the command. With BUSY = 0 the WAIT ends at once: one STATUS
read with bit 0 = 0 (R28, R78, R201, R235; log 4, log 14). -/
def Obligations.WaitReachesCompletion : Prop :=
  (∀ (s : State) (w : Word) (k : Nat) (rest : List HostOp),
    s.engine = some ⟨w, k⟩ → s.hostOps = .waitIdle :: rest →
    s.statusWord.getLsbD 0 = true ∧
    Sys2Proof.core.run (k + 1) s = runWord w { s with
      engine := some ⟨w, 0⟩
      reads := List.replicate k ⟨0x000004, .word, s.statusWord⟩ ++ s.reads }) ∧
  (∀ (s : State) (rest : List HostOp), s.engine = none → s.hostOps = .waitIdle :: rest →
    s.statusWord.getLsbD 0 = false ∧
    step s = .next { s with
      hostOps := rest
      reads := ⟨0x000004, .word, s.statusWord⟩ :: s.reads })

/-- A read is side-effect free and returns pre-command values (R28, R62, R234): it adds its value to the
host's record, and a second read of the same address returns the same value. -/
def Obligations.ReadsHaveNoSideEffect : Prop :=
  ∀ (s : State) (a : Addr) (n : Width) (rest : List HostOp) (v : Word),
    s.HostMoves → s.hostOps = .read a n :: rest → s.memRead a n = some v →
    ∃ t, step s = .next t ∧ t.reads = ⟨a, n, v⟩ :: s.reads ∧ t.hostOps = rest ∧ t.busy = s.busy ∧
      t.memRead a n = some v ∧
      { t with engine := s.engine, hostOps := s.hostOps, reads := s.reads } = s

/-- LOADIN (R78): its byte writes and its IN_LEN write, one host turn each on an idle block, leave the operand
in IN and its length in IN_LEN, and change nothing else. The bytes must fit IN. -/
def Obligations.LoadInStoresOperand : Prop :=
  ∀ (s : State) (data : List Byte) (rest : List HostOp), s.params.Valid → s.engine = none →
    data.length ≤ s.params.inMax → s.hostOps = (HostLine.loadIn data).expand ++ rest →
    ∃ t, Sys2Proof.core.run (data.length + 1) s = .next t ∧ t.hostOps = rest ∧
      t.inLen.toNat = data.length ∧ (∀ i b, data[i]? = some b → t.inByte i = b) ∧
      (∀ a, (a < 0x100000 ∨ 0x100000 + data.length ≤ a) → t.readByte a = s.readByte a) ∧
      { t with mem := s.mem, inLen := s.inLen, hostOps := s.hostOps } = s

/-! ## The builder commands -/

/-- R101: NEW, its word, and all it writes, in BUILDING and in FROZEN. -/
def Obligations.NewStartsFreshBuilder : Prop :=
  decode 0x00000001 = .ok .new ∧
  ∀ s : State, s.phase ≠ .fault →
    exec .new s = .next { s with
      fwd := State.reset.fwd, rev := State.reset.rev, pad := false, nameSet := false,
      cfgCause := ⟨false, false, false⟩, phase := .building, err := .ok, engine := none } ∧
    (∀ v, State.reset.fwd.get v = none) ∧ (∀ c, State.reset.rev.get c = none)

/-- R102: SET_NAME. -/
def Obligations.SetNameStoresLabel : Prop :=
  decode 0x00000002 = .ok .setName ∧
  ∀ s : State,
    (s.phase = .frozen → exec .setName s = .next { s with err := .phase, engine := none }) ∧
    (s.phase = .building → s.params.inMax < s.inLen.toNat →
      exec .setName s = .next { s with err := .length, engine := none }) ∧
    (s.phase = .building → s.inLen.toNat ≤ s.params.inMax →
      ∃ label : List Byte, label.length = s.inLen.toNat ∧
        (∀ i, i < s.inLen.toNat → label[i]? = some (s.inByte i)) ∧
        exec .setName s =
          .next { s with name := label, nameSet := true, err := .ok, engine := none })

/-- R103: SET_PADDING. -/
def Obligations.SetPaddingWritesPadAndRev : Prop :=
  decode 0x00000003 = .ok (.setPadding false) ∧ decode 0x00000013 = .ok (.setPadding true) ∧
  ∀ (s : State) (en : Bool),
    (s.phase = .frozen →
      exec (.setPadding en) s = .next { s with err := .phase, engine := none }) ∧
    (s.phase = .building → ∃ r : Rev,
      exec (.setPadding en) s = .next { s with pad := en, rev := r, err := .ok, engine := none } ∧
      (en = true → cid 0x3D = some 13 ∧ r.get 13 = some 0) ∧ (en = false → r.get 13 = s.rev.get 13) ∧
      (∀ c : Fin 75, c ≠ 13 → r.get c = s.rev.get c))

/-- DECLARE_MAPPING (R104) on a block whose IN holds the operand: the first declaration of a value wins for
FWD, the last position that holds a Symbol wins for its REV entry, every other entry is kept. -/
def Obligations.DeclareMappingFirstWinsLastWins : Prop :=
  decode 0x00000004 = .ok .declareMapping ∧
  ∀ s : State, s.phase = .building → s.inLen = 32 → 32 ≤ s.params.inMax →
    ∃ (f : Fwd) (r : Rev),
      exec .declareMapping s = .next { s with fwd := f, rev := r, err := .ok, engine := none } ∧
      (∀ v : Value, f.get v =
        if s.fwd.get v = none ∧ isSymbol (s.inByte v.toNat) = true then some (s.inByte v.toNat)
        else s.fwd.get v) ∧
      (∀ (c : Fin 75) (v : Value), cid (s.inByte v.toNat) = some c →
        (∀ u : Value, v.toNat < u.toNat → cid (s.inByte u.toNat) ≠ some c) → r.get c = some v) ∧
      (∀ c : Fin 75, (∀ u : Value, cid (s.inByte u.toNat) ≠ some c) → r.get c = s.rev.get c)

/-- R105: DECLARE_ALIASES. -/
def Obligations.DeclareAliasesOverwritesRev : Prop :=
  (∀ val : Value, decode (BitVec.ofNat 32 (5 + 16 * val.toNat)) = .ok (.declareAliases val)) ∧
  ∀ (s : State) (val : Value),
    (s.phase = .frozen →
      exec (.declareAliases val) s = .next { s with err := .phase, engine := none }) ∧
    (s.phase = .building → s.params.inMax < s.inLen.toNat →
      exec (.declareAliases val) s = .next { s with err := .length, engine := none }) ∧
    (s.phase = .building → s.inLen.toNat ≤ s.params.inMax → ∃ r : Rev,
      exec (.declareAliases val) s = .next { s with rev := r, err := .ok, engine := none } ∧
      (∀ k c, k < s.inLen.toNat → cid (s.inByte k) = some c → r.get c = some val) ∧
      (∀ c, (∀ k, k < s.inLen.toNat → cid (s.inByte k) ≠ some c) → r.get c = s.rev.get c))

/-- R106: FINALIZE makes all three checks, and freezes the slot or faults with every cause recorded. -/
def Obligations.FinalizeChecksThreeInvariants : Prop :=
  decode 0x00000006 = .ok .finalize ∧
  ∀ s : State,
    let fwdIncomplete := ∃ v : Value, s.fwd.get v = none
    let revNotSurjective := ∃ v : Value, ∀ c : Fin 75, s.rev.get c ≠ some v
    let padNotZero := s.pad = true ∧ s.rev.get 13 ≠ some 0
    (s.phase = .frozen → exec .finalize s = .next { s with err := .phase, engine := none }) ∧
    (s.phase = .building → ¬ fwdIncomplete → ¬ revNotSurjective → ¬ padNotZero →
      exec .finalize s = .next { s with phase := .frozen, err := .ok, engine := none }) ∧
    (s.phase = .building → (fwdIncomplete ∨ revNotSurjective ∨ padNotZero) → ∃ cause : CfgCause,
      exec .finalize s =
        .next { s with cfgCause := cause, phase := .fault, err := .config, engine := none } ∧
      (cause.fwdIncomplete = true ↔ fwdIncomplete) ∧
      (cause.revNotSurjective = true ↔ revNotSurjective) ∧
      (cause.padNotZero = true ↔ padNotZero))

/-- A fresh builder that gets 32 distinct Symbols by one DECLARE_MAPPING passes FINALIZE; with padding
enabled before, it does so if `'='` is not among them or is at position 0 (R108). -/
def Obligations.DistinctMappingFinalizes : Prop :=
  ∀ s : State, s.phase = .building → (∀ v, s.fwd.get v = none) → s.inLen = 32 → 32 ≤ s.params.inMax →
    (∀ i, i < 32 → isSymbol (s.inByte i) = true) →
    (∀ i j, i < 32 → j < 32 → s.inByte i = s.inByte j → i = j) →
    (s.pad = true → s.rev.get 13 = some 0 ∧ ∀ i, i < 32 → s.inByte i = 0x3D → i = 0) →
    ∃ t u, exec .declareMapping s = .next t ∧ exec .finalize t = .next u ∧ u.phase = .frozen ∧
      u.err = .ok

/-! ## ENCODE -/

/-- R132: the eight groups of a chunk of 1 to 5 bytes, as bits of its bytes. -/
def Obligations.GroupsAreTheBitsOfTheChunk : Prop :=
  ∀ c : List Byte, c.length ≤ 5 →
    let b := fun i => c.getD i 0
    groupOf (chunkWord c) 0 = (b 0).extractLsb' 3 5 ∧
    groupOf (chunkWord c) 1 = (b 0).extractLsb' 0 3 ++ (b 1).extractLsb' 6 2 ∧
    groupOf (chunkWord c) 2 = (b 1).extractLsb' 1 5 ∧
    groupOf (chunkWord c) 3 = (b 1).extractLsb' 0 1 ++ (b 2).extractLsb' 4 4 ∧
    groupOf (chunkWord c) 4 = (b 2).extractLsb' 0 4 ++ (b 3).extractLsb' 7 1 ∧
    groupOf (chunkWord c) 5 = (b 3).extractLsb' 2 5 ∧
    groupOf (chunkWord c) 6 = (b 3).extractLsb' 0 2 ++ (b 4).extractLsb' 5 3 ∧
    groupOf (chunkWord c) 7 = (b 4).extractLsb' 0 5

/-- R130 with R131, R132, R133 and R134: ENCODE, byte by byte of its result. -/
def Obligations.EncodeWritesSymbols : Prop :=
  decode 0x00000007 = .ok .encode ∧
  ∀ s : State,
    (s.phase = .building → exec .encode s = .next { s with err := .phase, engine := none }) ∧
    (s.phase = .frozen → s.params.inMax < s.inLen.toNat →
      exec .encode s = .next { s with err := .length, engine := none }) ∧
    (s.phase = .frozen → s.SlotOk → s.params.Valid → s.inLen.toNat ≤ s.params.inMax →
      let n := s.inLen.toNat
      let genuine := fun r : Nat => (r * 8 + 4) / 5
      ∃ t, exec .encode s = .next t ∧ t.err = .ok ∧ t.engine = none ∧
        t.outLen.toNat = 8 * (n / 5) +
          (if s.pad then (if 0 < n % 5 then 8 else 0) else genuine (n % 5)) ∧
        (∀ k, k < (n + 4) / 5 →
          (∀ j, j < genuine (min 5 (n - 5 * k)) →
            s.fwd.get ((s.dataWord k).extractLsb' (35 - 5 * j) 5) = some (t.outByte (8 * k + j))) ∧
          (s.pad = true → ∀ j, genuine (min 5 (n - 5 * k)) ≤ j → j < 8 →
            t.outByte (8 * k + j) = 0x3D)) ∧
        KeepsBytesBeyond t.outLen.toNat s t ∧ KeepsAllButResult s t)

/-- R131: the length of the encoded text under either padding setting, and its bound. -/
def Obligations.EncodedLength : Prop :=
  ∀ (f : Fwd) (data t : List Byte) (pad : Bool), encodeText f pad data = some t →
    let q := data.length / 5
    let r := data.length % 5
    (pad = false → t.length = 8 * q + (r * 8 + 4) / 5) ∧
    (pad = true → t.length = 8 * q + (if 0 < r then 8 else 0) ∧
      t.length = 8 * ((data.length + 4) / 5) ∧ t.length % 8 = 0) ∧
    t.length ≤ 8 * ((data.length + 4) / 5)

/-- R135: ENCODE changes none of FWD, REV, PAD, NAME, NAME_SET, PHASE, IN, IN_LEN, and a second ENCODE of
the same IN gives the same OUT and OUT_LEN. -/
def Obligations.EncodeIsRepeatable : Prop :=
  ∀ s t : State, s.params.Valid → s.phase = .frozen → exec .encode s = .next t →
    t.fwd = s.fwd ∧ t.rev = s.rev ∧ t.pad = s.pad ∧ t.name = s.name ∧ t.nameSet = s.nameSet ∧
    t.phase = s.phase ∧ t.inLen = s.inLen ∧ (∀ i, i < s.params.inMax → t.inByte i = s.inByte i) ∧
    ∃ u, exec .encode t = .next u ∧ u.outLen = t.outLen ∧ ∀ i, u.outByte i = t.outByte i

/-! ## DECODE -/

/-- R151: the scan drops the trailing `'='` bytes, at most 6 of them. -/
def Obligations.UnpaddedScan : Prop :=
  ∀ text : List Byte, UnpaddedCount (fun i => text.getD i 0) text.length (unpadded text)

/-- R150 with R151 to R155: DECODE, byte by byte of its result. -/
def Obligations.DecodeUnpacksValues : Prop :=
  decode 0x00000008 = .ok .decode ∧
  ∀ s : State,
    (s.phase = .building → exec .decode s = .next { s with err := .phase, engine := none }) ∧
    (s.phase = .frozen → s.params.inMax < s.inLen.toNat →
      exec .decode s = .next { s with err := .length, engine := none }) ∧
    (s.phase = .frozen → s.inLen.toNat ≤ s.params.inMax →
      (∃ i, i < s.inLen.toNat ∧ ¬ s.rev.Accepts (s.inByte i)) →
      exec .decode s = .next { s with err := .decode, engine := none }) ∧
    (s.phase = .frozen → s.params.Valid → s.inLen.toNat ≤ s.params.inMax →
      ∀ (v : Nat → Value) (u : Nat),
        (∀ i, i < s.inLen.toNat → ∃ c, cid (s.inByte i) = some c ∧ s.rev.get c = some (v i)) →
        (∀ i, s.inLen.toNat ≤ i → v i = 0) → UnpaddedCount s.inByte s.inLen.toNat u →
        ∃ t, exec .decode s = .next t ∧ t.err = .ok ∧ t.engine = none ∧
          t.outLen.toNat = u * 5 / 8 ∧
          (∀ q, q < u * 5 / 8 →
            t.outByte q = (chunkOfValues v (q / 5)).extractLsb' (32 - 8 * (q % 5)) 8) ∧
          KeepsBytesBeyond t.outLen.toNat s t ∧ KeepsAllButResult s t)

/-- R153 on the codec's function: a text decodes exactly when every byte of it is accepted. -/
def Obligations.DecodeRejectsBadBytes : Prop :=
  ∀ (r : Rev) (text : List Byte),
    (decodeText r text = none ↔ ∃ b ∈ text, ¬ r.Accepts b) ∧
    (∀ b : Byte, r.Accepts b → 0x30 ≤ b.toNat ∧ b.toNat ≤ 0x7A)

/-- R161: a text with a byte that is out of range or unmapped ends with ERR_DECODE, and DECODE changes none of
FWD, REV, PAD, NAME, NAME_SET, PHASE, IN and IN_LEN, whatever its outcome. -/
def Obligations.DecodeRejectsAndLeavesSlot : Prop :=
  (∀ s : State, s.phase = .frozen → s.inLen.toNat ≤ s.params.inMax →
    (∃ i, i < s.inLen.toNat ∧ (¬ (0x30 ≤ (s.inByte i).toNat ∧ (s.inByte i).toNat ≤ 0x7A) ∨
      ∃ c : Fin 75, (s.inByte i).toNat = 0x30 + c.val ∧ s.rev.get c = none)) →
    exec .decode s = .next { s with err := .decode, engine := none }) ∧
  ∀ s t : State, s.params.Valid → exec .decode s = .next t →
    t.fwd = s.fwd ∧ t.rev = s.rev ∧ t.pad = s.pad ∧ t.name = s.name ∧ t.nameSet = s.nameSet ∧
    t.phase = s.phase ∧ t.inLen = s.inLen ∧ (∀ i, i < s.params.inMax → t.inByte i = s.inByte i)

/-- R157: the length of a decoded result and its bounds. -/
def Obligations.DecodedLengthBound : Prop :=
  ∀ (r : Rev) (text d : List Byte), decodeText r text = some d →
    d.length = unpadded text * 5 / 8 ∧ d.length ≤ 5 * text.length / 8 ∧
    d.length ≤ 5 * ((text.length + 7) / 8) ∧ d.length ≤ 8 * ((text.length + 4) / 5)

/-- R160: replacing a symbol by another one with the same value, neither being `'='`, leaves DECODE's result
unchanged. -/
def Obligations.AliasEquivalence : Prop :=
  ∀ (r : Rev) (b1 b2 : Byte) (c1 c2 : Fin 75) (v : Value),
    cid b1 = some c1 → cid b2 = some c2 → r.get c1 = some v → r.get c2 = some v →
    b1 ≠ 0x3D → b2 ≠ 0x3D →
    ∀ x y : List Byte, List.Forall₂ (fun a b => a = b ∨ (a = b1 ∧ b = b2)) x y →
      decodeText r x = decodeText r y

/-- The round trip of R159 on the codec's functions: under H1 and H2, decoding an encoded text gives the
data back. -/
def Obligations.RoundTrip : Prop :=
  ∀ (s : State) (data : List Byte), s.SlotOk → s.CanonicalDecodes → s.PadNotCanonical →
    ∃ text, encodeText s.fwd s.pad data = some text ∧ decodeText s.rev text = some data

/-- The round trip of R159 on the block: ENCODE, then the host copies OUT to IN, then DECODE. The text must
fit IN, which R159 does not say. -/
def Obligations.RoundTripOnTheBlock : Prop :=
  ∀ s t u : State, s.params.Valid → s.SlotOk → s.CanonicalDecodes → s.PadNotCanonical →
    s.phase = .frozen → s.inLen.toNat ≤ s.params.inMax → exec .encode s = .next t →
    u.phase = .frozen → u.params = s.params → u.rev = s.rev → u.inLen = t.outLen →
    u.inLen.toNat ≤ u.params.inMax → (∀ i, i < t.outLen.toNat → u.inByte i = t.outByte i) →
    ∃ w, exec .decode u = .next w ∧ w.err = .ok ∧ w.outLen = s.inLen ∧
      ∀ i, i < s.inLen.toNat → w.outByte i = s.inByte i

/-! ## The accessors -/

/-- R180: GET_NAME. -/
def Obligations.GetNameReturnsName : Prop :=
  decode 0x00000009 = .ok .getName ∧
  ∀ s : State,
    (s.phase = .building → exec .getName s = .next { s with err := .phase, engine := none }) ∧
    (s.phase = .frozen → s.params.Valid → s.name.length ≤ s.params.inMax →
      ∀ shown : List Byte, shown = (if s.nameSet then s.name else s.params.namePlaceholder) →
      ∃ t, exec .getName s = .next t ∧ t.err = .ok ∧ t.engine = none ∧
        t.outLen.toNat = shown.length ∧
        (∀ i, i < shown.length → shown[i]? = some (t.outByte i)) ∧
        KeepsBytesBeyond shown.length s t ∧ KeepsAllButResult s t)

/-- R181: GET_PADDING. -/
def Obligations.GetPaddingReturnsFlag : Prop :=
  decode 0x0000000A = .ok .getPadding ∧
  ∀ s : State,
    (s.phase = .building → exec .getPadding s = .next { s with err := .phase, engine := none }) ∧
    (s.phase = .frozen → s.params.Valid →
      ∃ t, exec .getPadding s = .next t ∧ t.err = .ok ∧ t.engine = none ∧ t.outLen = 1 ∧
        t.outByte 0 = (if s.pad then 0x01 else 0x00) ∧
        KeepsBytesBeyond 1 s t ∧ KeepsAllButResult s t)

/-! ## Errors, phases and FAULT -/

/-- R206: the phase in which each command executes. -/
def Obligations.WrongPhaseRaisesErrPhase : Prop :=
  ∀ (i : Instr) (s : State), s.phase ≠ .fault →
    (i.allowedIn s.phase = false →
      exec i s = .next { s with err := .phase, engine := none }) ∧
    (i.allowedIn s.phase = true → ∀ t, exec i s = .next t → t.err ≠ .phase)

/-- R207: ERR_LENGTH, whatever IN holds. -/
def Obligations.LengthRules : Prop :=
  ∀ s : State,
    (s.phase = .building → s.params.inMax < s.inLen.toNat →
      exec .setName s = .next { s with err := .length, engine := none } ∧
      ∀ val, exec (.declareAliases val) s = .next { s with err := .length, engine := none }) ∧
    (s.phase = .frozen → s.params.inMax < s.inLen.toNat →
      exec .encode s = .next { s with err := .length, engine := none } ∧
      exec .decode s = .next { s with err := .length, engine := none }) ∧
    (s.phase = .building → s.inLen ≠ 32 →
      exec .declareMapping s = .next { s with err := .length, engine := none })

/-- R33: IN_LEN takes any 32-bit value and reads it back, no command writes it, and a value above IN_MAX
makes every data-operand command fail with ERR_LENGTH. For DECLARE_MAPPING with IN_LEN = 32 on a block whose
IN_MAX is below 32 that is the model's choice between R33 and R104 (log 7). -/
def Obligations.InLenHoldsAnyValue : Prop :=
  (∀ (s : State) (v : Word) (rest : List HostOp), s.engine = none →
    s.hostOps = .write 0x000008 .word v :: rest →
    ∃ t, step s = .next t ∧ t = { s with inLen := v, hostOps := rest } ∧
      t.memRead 0x000008 .word = some v) ∧
  (∀ (i : Instr) (s t : State), exec i s = .next t → t.inLen = s.inLen) ∧
  (∀ (i : Instr) (s : State), s.params.inMax < s.inLen.toNat → i.allowedIn s.phase = true →
    (i = .setName ∨ i = .declareMapping ∨ (∃ v, i = .declareAliases v) ∨ i = .encode ∨ i = .decode) →
    exec i s = .next { s with err := .length, engine := none })

/-- R203: a command that raises an error writes ERR, and for ERR_CONFIG also CFG_CAUSE and PHASE, and
nothing else. -/
def Obligations.ErrorsWriteNothingElse : Prop :=
  (∀ (i : Instr) (s t : State), s.phase ≠ .fault → exec i s = .next t →
    (t.err ≠ .ok → t.err ≠ .config → t = { s with err := t.err, engine := none }) ∧
    (t.err = .config →
      t = { s with err := .config, engine := none, cfgCause := t.cfgCause, phase := .fault })) ∧
  (∀ (s : State) (w : Word) (e : Illegal), s.phase ≠ .fault → decode w = .error e →
    runWord w s = .next { s with err := .illegal, engine := none })

/-- R204: the first error of the order FAULT, ERR_ILLEGAL, ERR_PHASE, ERR_LENGTH is the one raised. -/
def Obligations.ErrorPriority : Prop :=
  ∀ (s : State) (w : Word), s.engine = some ⟨w, 0⟩ →
    (s.phase = .fault → step s = .next { s with engine := none }) ∧
    (s.phase ≠ .fault → (∃ e, decode w = .error e) →
      step s = .next { s with err := .illegal, engine := none }) ∧
    (∀ i, s.phase ≠ .fault → decode w = .ok i → i.allowedIn s.phase = false →
      step s = .next { s with err := .phase, engine := none }) ∧
    (∀ i, decode w = .ok i → i.allowedIn s.phase = true →
      ((i = .declareMapping ∧ s.inLen ≠ 32) ∨
        (s.params.inMax < s.inLen.toNat ∧
          (i = .setName ∨ (∃ v, i = .declareAliases v) ∨ i = .encode ∨ i = .decode))) →
      step s = .next { s with err := .length, engine := none })

/-- In FAULT the block ignores every command, and a step that is no reset leaves the slot, ERR, CFG_CAUSE,
OUT and OUT_LEN as they are (R210). -/
def Obligations.FaultIgnoresEveryCommand : Prop :=
  (∀ (i : Instr) (s : State), s.phase = .fault → exec i s = .next { s with engine := none }) ∧
  (∀ s t : State, s.params.Valid → s.phase = .fault → s.engine = none → step s = .next t →
    (∀ rest, s.hostOps ≠ .reset :: rest) →
    { t with mem := s.mem, inLen := s.inLen, hostOps := s.hostOps, reads := s.reads } = s ∧
    ∀ i, t.outByte i = s.outByte i)

/-- R211: only reset leaves FAULT. -/
def Obligations.OnlyResetLeavesFault : Prop :=
  ∀ s t : State, s.phase = .fault → step s = .next t → t.phase ≠ .fault →
    ∃ rest, s.hostOps = .reset :: rest

/-- R36: a FROZEN slot meets the alphabet invariants, and does not change until NEW or reset. -/
def Obligations.FrozenSlotIsImmutable : Prop :=
  ∀ s t : State, s.Inv → s.phase = .frozen → step s = .next t →
    (s.HostMoves → ∀ rest, s.hostOps ≠ .reset :: rest) →
    (∀ w, s.engine = some ⟨w, 0⟩ → decode w ≠ .ok .new) →
    s.SlotOk ∧ t.phase = .frozen ∧ t.fwd = s.fwd ∧ t.rev = s.rev ∧ t.pad = s.pad ∧ t.name = s.name ∧
    t.nameSet = s.nameSet

/-- Every command completes from every state of the invariant: no fault and no refusal, BUSY = 0 after it,
OUT_LEN within OUT_MAX (R5, R201). -/
def Obligations.EveryCommandCompletes : Prop :=
  ∀ (i : Instr) (s : State), s.Inv →
    ∃ t, exec i s = .next t ∧ t.busy = false ∧ t.outLen.toNat ≤ t.params.outMax

/-- A command's result depends only on its word, IN_LEN, the operand and the slot (R7). -/
def Obligations.ResultDependsOnlyOnOperand : Prop :=
  ∀ (i : Instr) (s1 s2 t1 t2 : State),
    s1.params = s2.params → s1.fwd = s2.fwd → s1.rev = s2.rev → s1.pad = s2.pad →
    s1.name = s2.name → s1.nameSet = s2.nameSet → s1.phase = s2.phase → s1.cfgCause = s2.cfgCause →
    s1.inLen = s2.inLen → (∀ k, k < s1.inLen.toNat → s1.inByte k = s2.inByte k) →
    s1.phase ≠ .fault → exec i s1 = .next t1 → exec i s2 = .next t2 →
    t1.err = t2.err ∧ t1.fwd = t2.fwd ∧ t1.rev = t2.rev ∧ t1.pad = t2.pad ∧ t1.name = t2.name ∧
    t1.nameSet = t2.nameSet ∧ t1.phase = t2.phase ∧ t1.cfgCause = t2.cfgCause ∧
    (i.hasOutput = true → t1.err = .ok →
      t1.outLen = t2.outLen ∧ ∀ k, k < t1.outLen.toNat → t1.outByte k = t2.outByte k)

/-! ## Registers and windows -/

/-- R32: the layout of STATUS; its reset value; no write changes it. -/
def Obligations.StatusLayout : Prop :=
  (∀ s : State,
    let w := s.statusWord
    s.memRead 0x000004 .word = some w ∧
    w.getLsbD 0 = s.engine.isSome ∧
    w.extractLsb' 1 2 =
      (match s.phase with | .building => 0b00#2 | .frozen => 0b01#2 | .fault => 0b10#2) ∧
    w.getLsbD 3 = s.pad ∧
    w.extractLsb' 4 4 = (match s.err with
      | .ok => 0#4 | .illegal => 1#4 | .phase => 2#4 | .length => 3#4 | .decode => 4#4 | .config => 5#4) ∧
    w.getLsbD 8 = s.cfgCause.fwdIncomplete ∧ w.getLsbD 9 = s.cfgCause.revNotSurjective ∧
    w.getLsbD 10 = s.cfgCause.padNotZero ∧ w.getLsbD 11 = s.nameSet ∧ w.extractLsb' 12 20 = 0) ∧
  State.reset.statusWord = 0 ∧
  (∀ (s : State) (v : Word) (rest : List HostOp), s.HostMoves →
    s.hostOps = .write 0x000004 .word v :: rest →
    step s = .next { s.ticked with hostOps := rest } ∧ s.ticked.statusWord = s.statusWord)

/-- R35: CAP_IN_MAX and CAP_OUT_MAX read the parameters, writes are ignored, and no step changes them. -/
def Obligations.CapacitiesAreHardwired : Prop :=
  ∀ s : State,
    (s.params.Valid → ∃ x y, s.memRead 0x000010 .word = some x ∧ s.memRead 0x000014 .word = some y ∧
      x.toNat = s.params.inMax ∧ y.toNat = s.params.outMax) ∧
    (∀ (v : Word) (rest : List HostOp) (a : Addr), a = 0x000010 ∨ a = 0x000014 → s.HostMoves →
      s.hostOps = .write a .word v :: rest → step s = .next { s.ticked with hostOps := rest }) ∧
    (∀ t, step s = .next t → t.params = s.params)

/-- R56: host writes to STATUS, OUT_LEN, CAP_IN_MAX and CAP_OUT_MAX are ignored, BUSY or not; a write to IN_LEN
sets it; a write to CMD issues a command; CMD reads 0. IN_LEN and OUT_LEN read their values, at the addresses of
R51 (R33, R34). -/
def Obligations.RegisterWrites : Prop :=
  (∀ (s : State) (a : Addr) (v : Word) (rest : List HostOp), s.hostOps = .write a .word v :: rest →
    (a = 0x000004 ∨ a = 0x00000C ∨ a = 0x000010 ∨ a = 0x000014 → s.HostMoves →
      step s = .next { s.ticked with hostOps := rest }) ∧
    (a = 0x000008 → s.engine = none → step s = .next { s with inLen := v, hostOps := rest }) ∧
    (a = 0x000000 → s.engine = none → s.phase ≠ .fault →
      ∃ t, step s = .next t ∧ t.busy = true ∧ t.hostOps = rest ∧
        (t.engine.map fun e => e.word) = some v)) ∧
  ∀ s : State, s.memRead 0x000000 .word = some 0 ∧ s.memRead 0x000008 .word = some s.inLen ∧
    s.memRead 0x00000C .word = some s.outLen

/-- R55: reserved ranges read 0 and ignore writes. -/
def Obligations.ReservedRangesReadZero : Prop :=
  ∀ (s : State) (a : Addr) (n : Width), a.toNat % n.bytes = 0 → 0x000018 ≤ a.toNat →
    ¬ (0x100000 ≤ a.toNat ∧ a.toNat < 0x100000 + s.params.inMax) →
    ¬ (0x200000 ≤ a.toNat ∧ a.toNat < 0x200000 + s.params.outMax) →
    s.memRead a n = some 0 ∧
    ∀ (v : Word) (rest : List HostOp), s.HostMoves → s.hostOps = .write a n v :: rest →
      step s = .next { s.ticked with hostOps := rest }

/-- R57 with R54: the IN window, little-endian; the engine never writes IN. -/
def Obligations.InWindowAccesses : Prop :=
  ∀ (s : State) (i : Nat) (n : Width) (a : Addr), s.params.Valid → i % n.bytes = 0 →
    i + n.bytes ≤ s.params.inMax → a.toNat = 0x100000 + i →
    (∃ x, s.memRead a n = some x ∧ x.toNat < 2 ^ (8 * n.bytes) ∧
      ∀ k, k < n.bytes → x.extractLsb' (8 * k) 8 = s.inByte (i + k)) ∧
    (∀ (v : Word) (rest : List HostOp), s.engine = none → s.hostOps = .write a n v :: rest →
      ∃ t, step s = .next t ∧ t.hostOps = rest ∧
        (∀ k, k < n.bytes → t.inByte (i + k) = v.extractLsb' (8 * k) 8) ∧
        (∀ b, (b < 0x100000 + i ∨ 0x100000 + i + n.bytes ≤ b) → t.readByte b = s.readByte b) ∧
        { t with mem := s.mem, hostOps := s.hostOps } = s) ∧
    (∀ (j : Instr) (t : State) (k : Nat), exec j s = .next t → k < s.params.inMax →
      t.inByte k = s.inByte k)

/-- R58 with R54: the OUT window, little-endian; host writes are ignored; the bytes from OUT_LEN up hold what
they held before a command. -/
def Obligations.OutWindowAccesses : Prop :=
  ∀ (s : State) (i : Nat) (n : Width) (a : Addr), s.params.Valid → i % n.bytes = 0 →
    i + n.bytes ≤ s.params.outMax → a.toNat = 0x200000 + i →
    (∃ x, s.memRead a n = some x ∧ x.toNat < 2 ^ (8 * n.bytes) ∧
      ∀ k, k < n.bytes → x.extractLsb' (8 * k) 8 = s.outByte (i + k)) ∧
    (∀ (v : Word) (rest : List HostOp), s.HostMoves → s.hostOps = .write a n v :: rest →
      step s = .next { s.ticked with hostOps := rest }) ∧
    (∀ (j : Instr) (t : State) (k : Nat), exec j s = .next t → t.outLen.toNat ≤ k →
      t.outByte k = s.outByte k)

/-- An access that breaks R52 has no step (R53). That a misaligned access to a reserved range is one too is the
model's choice between R53 and R55 (log 8). -/
def Obligations.ForbiddenAccessIsRefused : Prop :=
  ∀ (s : State) (a : Addr) (n : Width) (rest : List HostOp), s.params.Valid → s.HostMoves →
    (s.hostOps = .read a n :: rest ∨ ∃ v, s.hostOps = .write a n v :: rest) →
    (a.toNat % n.bytes ≠ 0 ∨ (a.toNat < 0x18 ∧ n ≠ .word) ∨
      (0x100000 ≤ a.toNat ∧ a.toNat < 0x100000 + s.params.inMax ∧
        0x100000 + s.params.inMax < a.toNat + n.bytes) ∨
      (0x200000 ≤ a.toNat ∧ a.toNat < 0x200000 + s.params.outMax ∧
        0x200000 + s.params.outMax < a.toNat + n.bytes)) →
    step s = .refused .accessNotAllowed

/-- R233: a write to CMD, IN_LEN or an IN byte while BUSY = 1 has no step. -/
def Obligations.WritesWhileBusyAreRefused : Prop :=
  ∀ (s : State) (w : Word) (k : Nat) (a : Addr) (n : Width) (v : Word) (rest : List HostOp),
    s.engine = some ⟨w, k + 1⟩ → s.hostOps = .write a n v :: rest →
    (a = 0x000000 ∧ n = .word ∨ a = 0x000008 ∧ n = .word ∨
      (a.toNat % n.bytes = 0 ∧ 0x100000 ≤ a.toNat ∧ a.toNat + n.bytes ≤ 0x100000 + s.params.inMax)) →
    step s = .refused .writeWhileBusy

/-! ## Reset and the invariant -/

/-- R39: the values after reset that the spec states. -/
def Obligations.ResetValues : Prop :=
  (∀ v, State.reset.fwd.get v = none) ∧ (∀ c, State.reset.rev.get c = none) ∧
  State.reset.pad = false ∧ State.reset.nameSet = false ∧ State.reset.phase = .building ∧
  State.reset.cfgCause.bits = 0 ∧ State.reset.busy = false ∧ State.reset.err = .ok ∧
  State.reset.inLen = 0 ∧ State.reset.outLen = 0 ∧ State.reset.statusWord = 0 ∧
  (∃ x y, State.reset.memRead 0x000010 .word = some x ∧ State.reset.memRead 0x000014 .word = some y ∧
    x.toNat = State.reset.params.inMax ∧ y.toNat = State.reset.params.outMax)

/-- R230: reset, at any time and in any phase, abandons an executing command and gives every piece of state
the value R39 states for it; the parameters are hardwired. (Of NAME and of the IN and OUT bytes R39 states no
value.) -/
def Obligations.ResetRestoresEveryState : Prop :=
  ∀ (s : State) (rest : List HostOp), s.HostMoves → s.hostOps = .reset :: rest →
    ∃ t, step s = .next t ∧ (∀ v, t.fwd.get v = none) ∧ (∀ c, t.rev.get c = none) ∧
      t.pad = false ∧ t.nameSet = false ∧ t.phase = .building ∧ t.cfgCause = ⟨false, false, false⟩ ∧
      t.busy = false ∧ t.err = .ok ∧ t.inLen = 0 ∧ t.outLen = 0 ∧ t.params = s.params ∧
      t.hostOps = rest ∧ t.reads = s.reads

/-- R231: the slot after reset is the slot after NEW. -/
def Obligations.ResetSlotEqualsNewSlot : Prop :=
  ∀ (s t u : State) (rest : List HostOp), s.HostMoves → s.hostOps = .reset :: rest →
    s.phase ≠ .fault → step s = .next t → exec .new s = .next u →
    t.fwd = u.fwd ∧ t.rev = u.rev ∧ t.pad = u.pad ∧ t.nameSet = u.nameSet ∧ t.phase = u.phase ∧
    t.cfgCause = u.cfgCause ∧ t.busy = u.busy ∧ t.params = u.params

/-- The invariant holds after reset, on every block R5 admits. -/
def Obligations.InvAtReset : Prop :=
  State.reset.Inv ∧ ∀ p : Params, p.Valid → State.Inv { State.reset with params := p }

/-- Every step keeps the invariant. -/
def Obligations.StepKeepsInv : Prop :=
  ∀ s t : State, s.Inv → step s = .next t → t.Inv

/-- No step faults from a state of the invariant: the lookup of ENCODE never meets INVALID and no result
overflows OUT (R5, R130). -/
def Obligations.StepNeverFaults : Prop :=
  ∀ (s : State) (f : Fault), s.Inv → step s ≠ .fault f
end

