-- ==== Sys2Proof/Laws/State.lean ====
section
/-! SUPPORT. What each named update of the state does to each field: one lemma a field, so that no proof
unfolds a record update. -/

namespace Sys2Proof.Machine

variable (s : State)

@[simp] theorem completeOk_params : (completeOk s).params = s.params := rfl
@[simp] theorem completeOk_fwd : (completeOk s).fwd = s.fwd := rfl
@[simp] theorem completeOk_rev : (completeOk s).rev = s.rev := rfl
@[simp] theorem completeOk_pad : (completeOk s).pad = s.pad := rfl
@[simp] theorem completeOk_name : (completeOk s).name = s.name := rfl
@[simp] theorem completeOk_nameSet : (completeOk s).nameSet = s.nameSet := rfl
@[simp] theorem completeOk_phase : (completeOk s).phase = s.phase := rfl
@[simp] theorem completeOk_cfgCause : (completeOk s).cfgCause = s.cfgCause := rfl
@[simp] theorem completeOk_err : (completeOk s).err = .ok := rfl
@[simp] theorem completeOk_engine : (completeOk s).engine = none := rfl
@[simp] theorem completeOk_mem : (completeOk s).mem = s.mem := rfl
@[simp] theorem completeOk_inLen : (completeOk s).inLen = s.inLen := rfl
@[simp] theorem completeOk_outLen : (completeOk s).outLen = s.outLen := rfl
@[simp] theorem completeOk_hostOps : (completeOk s).hostOps = s.hostOps := rfl
@[simp] theorem completeOk_reads : (completeOk s).reads = s.reads := rfl
@[simp] theorem completeOk_epoch : (completeOk s).epoch = s.epoch := rfl
@[simp] theorem completeOk_issues : (completeOk s).issues = s.issues := rfl

@[simp] theorem raiseError_params (e : ErrCode) : (raiseError e s).params = s.params := rfl
@[simp] theorem raiseError_fwd (e : ErrCode) : (raiseError e s).fwd = s.fwd := rfl
@[simp] theorem raiseError_rev (e : ErrCode) : (raiseError e s).rev = s.rev := rfl
@[simp] theorem raiseError_pad (e : ErrCode) : (raiseError e s).pad = s.pad := rfl
@[simp] theorem raiseError_name (e : ErrCode) : (raiseError e s).name = s.name := rfl
@[simp] theorem raiseError_nameSet (e : ErrCode) : (raiseError e s).nameSet = s.nameSet := rfl
@[simp] theorem raiseError_phase (e : ErrCode) : (raiseError e s).phase = s.phase := rfl
@[simp] theorem raiseError_cfgCause (e : ErrCode) : (raiseError e s).cfgCause = s.cfgCause := rfl
@[simp] theorem raiseError_err (e : ErrCode) : (raiseError e s).err = e := rfl
@[simp] theorem raiseError_engine (e : ErrCode) : (raiseError e s).engine = none := rfl
@[simp] theorem raiseError_mem (e : ErrCode) : (raiseError e s).mem = s.mem := rfl
@[simp] theorem raiseError_inLen (e : ErrCode) : (raiseError e s).inLen = s.inLen := rfl
@[simp] theorem raiseError_outLen (e : ErrCode) : (raiseError e s).outLen = s.outLen := rfl
@[simp] theorem raiseError_hostOps (e : ErrCode) : (raiseError e s).hostOps = s.hostOps := rfl
@[simp] theorem raiseError_reads (e : ErrCode) : (raiseError e s).reads = s.reads := rfl
@[simp] theorem raiseError_epoch (e : ErrCode) : (raiseError e s).epoch = s.epoch := rfl
@[simp] theorem raiseError_issues (e : ErrCode) : (raiseError e s).issues = s.issues := rfl

@[simp] theorem ignoreCommand_params : (ignoreCommand s).params = s.params := rfl
@[simp] theorem ignoreCommand_fwd : (ignoreCommand s).fwd = s.fwd := rfl
@[simp] theorem ignoreCommand_rev : (ignoreCommand s).rev = s.rev := rfl
@[simp] theorem ignoreCommand_pad : (ignoreCommand s).pad = s.pad := rfl
@[simp] theorem ignoreCommand_name : (ignoreCommand s).name = s.name := rfl
@[simp] theorem ignoreCommand_nameSet : (ignoreCommand s).nameSet = s.nameSet := rfl
@[simp] theorem ignoreCommand_phase : (ignoreCommand s).phase = s.phase := rfl
@[simp] theorem ignoreCommand_cfgCause : (ignoreCommand s).cfgCause = s.cfgCause := rfl
@[simp] theorem ignoreCommand_err : (ignoreCommand s).err = s.err := rfl
@[simp] theorem ignoreCommand_engine : (ignoreCommand s).engine = none := rfl
@[simp] theorem ignoreCommand_mem : (ignoreCommand s).mem = s.mem := rfl
@[simp] theorem ignoreCommand_inLen : (ignoreCommand s).inLen = s.inLen := rfl
@[simp] theorem ignoreCommand_outLen : (ignoreCommand s).outLen = s.outLen := rfl
@[simp] theorem ignoreCommand_hostOps : (ignoreCommand s).hostOps = s.hostOps := rfl
@[simp] theorem ignoreCommand_reads : (ignoreCommand s).reads = s.reads := rfl
@[simp] theorem ignoreCommand_epoch : (ignoreCommand s).epoch = s.epoch := rfl
@[simp] theorem ignoreCommand_issues : (ignoreCommand s).issues = s.issues := rfl

@[simp] theorem storeOut_params (t : List Byte) : (s.storeOut t).params = s.params := rfl
@[simp] theorem storeOut_fwd (t : List Byte) : (s.storeOut t).fwd = s.fwd := rfl
@[simp] theorem storeOut_rev (t : List Byte) : (s.storeOut t).rev = s.rev := rfl
@[simp] theorem storeOut_pad (t : List Byte) : (s.storeOut t).pad = s.pad := rfl
@[simp] theorem storeOut_name (t : List Byte) : (s.storeOut t).name = s.name := rfl
@[simp] theorem storeOut_nameSet (t : List Byte) : (s.storeOut t).nameSet = s.nameSet := rfl
@[simp] theorem storeOut_phase (t : List Byte) : (s.storeOut t).phase = s.phase := rfl
@[simp] theorem storeOut_cfgCause (t : List Byte) : (s.storeOut t).cfgCause = s.cfgCause := rfl
@[simp] theorem storeOut_err (t : List Byte) : (s.storeOut t).err = s.err := rfl
@[simp] theorem storeOut_engine (t : List Byte) : (s.storeOut t).engine = s.engine := rfl
@[simp] theorem storeOut_mem (t : List Byte) : (s.storeOut t).mem = s.mem.writeBytes outBase t := rfl
@[simp] theorem storeOut_inLen (t : List Byte) : (s.storeOut t).inLen = s.inLen := rfl
@[simp] theorem storeOut_outLen (t : List Byte) : (s.storeOut t).outLen = BitVec.ofNat 32 t.length := rfl
@[simp] theorem storeOut_hostOps (t : List Byte) : (s.storeOut t).hostOps = s.hostOps := rfl
@[simp] theorem storeOut_reads (t : List Byte) : (s.storeOut t).reads = s.reads := rfl
@[simp] theorem storeOut_epoch (t : List Byte) : (s.storeOut t).epoch = s.epoch := rfl
@[simp] theorem storeOut_issues (t : List Byte) : (s.storeOut t).issues = s.issues := rfl

@[simp] theorem freshSlot_params : s.freshSlot.params = s.params := rfl
@[simp] theorem freshSlot_fwd : s.freshSlot.fwd = Vector.replicate 32 none := rfl
@[simp] theorem freshSlot_rev : s.freshSlot.rev = Vector.replicate 75 none := rfl
@[simp] theorem freshSlot_pad : s.freshSlot.pad = false := rfl
@[simp] theorem freshSlot_name : s.freshSlot.name = s.name := rfl
@[simp] theorem freshSlot_nameSet : s.freshSlot.nameSet = false := rfl
@[simp] theorem freshSlot_phase : s.freshSlot.phase = .building := rfl
@[simp] theorem freshSlot_cfgCause : s.freshSlot.cfgCause = CfgCause.none := rfl
@[simp] theorem freshSlot_err : s.freshSlot.err = s.err := rfl
@[simp] theorem freshSlot_engine : s.freshSlot.engine = s.engine := rfl
@[simp] theorem freshSlot_mem : s.freshSlot.mem = s.mem := rfl
@[simp] theorem freshSlot_inLen : s.freshSlot.inLen = s.inLen := rfl
@[simp] theorem freshSlot_outLen : s.freshSlot.outLen = s.outLen := rfl
@[simp] theorem freshSlot_hostOps : s.freshSlot.hostOps = s.hostOps := rfl
@[simp] theorem freshSlot_reads : s.freshSlot.reads = s.reads := rfl
@[simp] theorem freshSlot_epoch : s.freshSlot.epoch = s.epoch := rfl
@[simp] theorem freshSlot_issues : s.freshSlot.issues = s.issues := rfl

@[simp] theorem recordRead_params (a : Addr) (n : Width) (v : Word) : (s.recordRead a n v).params = s.params := rfl
@[simp] theorem recordRead_fwd (a : Addr) (n : Width) (v : Word) : (s.recordRead a n v).fwd = s.fwd := rfl
@[simp] theorem recordRead_rev (a : Addr) (n : Width) (v : Word) : (s.recordRead a n v).rev = s.rev := rfl
@[simp] theorem recordRead_pad (a : Addr) (n : Width) (v : Word) : (s.recordRead a n v).pad = s.pad := rfl
@[simp] theorem recordRead_name (a : Addr) (n : Width) (v : Word) : (s.recordRead a n v).name = s.name := rfl
@[simp] theorem recordRead_nameSet (a : Addr) (n : Width) (v : Word) : (s.recordRead a n v).nameSet = s.nameSet := rfl
@[simp] theorem recordRead_phase (a : Addr) (n : Width) (v : Word) : (s.recordRead a n v).phase = s.phase := rfl
@[simp] theorem recordRead_cfgCause (a : Addr) (n : Width) (v : Word) : (s.recordRead a n v).cfgCause = s.cfgCause := rfl
@[simp] theorem recordRead_err (a : Addr) (n : Width) (v : Word) : (s.recordRead a n v).err = s.err := rfl
@[simp] theorem recordRead_engine (a : Addr) (n : Width) (v : Word) : (s.recordRead a n v).engine = s.engine := rfl
@[simp] theorem recordRead_mem (a : Addr) (n : Width) (v : Word) : (s.recordRead a n v).mem = s.mem := rfl
@[simp] theorem recordRead_inLen (a : Addr) (n : Width) (v : Word) : (s.recordRead a n v).inLen = s.inLen := rfl
@[simp] theorem recordRead_outLen (a : Addr) (n : Width) (v : Word) : (s.recordRead a n v).outLen = s.outLen := rfl
@[simp] theorem recordRead_hostOps (a : Addr) (n : Width) (v : Word) : (s.recordRead a n v).hostOps = s.hostOps := rfl
@[simp] theorem recordRead_reads (a : Addr) (n : Width) (v : Word) : (s.recordRead a n v).reads = ⟨a, n, v⟩ :: s.reads := rfl
@[simp] theorem recordRead_epoch (a : Addr) (n : Width) (v : Word) : (s.recordRead a n v).epoch = s.epoch := rfl
@[simp] theorem recordRead_issues (a : Addr) (n : Width) (v : Word) : (s.recordRead a n v).issues = s.issues := rfl

@[simp] theorem resetBlock_params : (resetBlock s).params = s.params := rfl
@[simp] theorem resetBlock_fwd : (resetBlock s).fwd = Vector.replicate 32 none := rfl
@[simp] theorem resetBlock_rev : (resetBlock s).rev = Vector.replicate 75 none := rfl
@[simp] theorem resetBlock_pad : (resetBlock s).pad = false := rfl
@[simp] theorem resetBlock_name : (resetBlock s).name = [] := rfl
@[simp] theorem resetBlock_nameSet : (resetBlock s).nameSet = false := rfl
@[simp] theorem resetBlock_phase : (resetBlock s).phase = .building := rfl
@[simp] theorem resetBlock_cfgCause : (resetBlock s).cfgCause = CfgCause.none := rfl
@[simp] theorem resetBlock_err : (resetBlock s).err = .ok := rfl
@[simp] theorem resetBlock_engine : (resetBlock s).engine = none := rfl
@[simp] theorem resetBlock_mem : (resetBlock s).mem = [] := rfl
@[simp] theorem resetBlock_inLen : (resetBlock s).inLen = 0 := rfl
@[simp] theorem resetBlock_outLen : (resetBlock s).outLen = 0 := rfl
@[simp] theorem resetBlock_hostOps : (resetBlock s).hostOps = s.hostOps := rfl
@[simp] theorem resetBlock_reads : (resetBlock s).reads = s.reads := rfl
@[simp] theorem resetBlock_epoch : (resetBlock s).epoch = s.epoch + 1 := rfl
@[simp] theorem resetBlock_issues : (resetBlock s).issues = s.issues := rfl

@[simp] theorem ticked_params : s.ticked.params = s.params := rfl
@[simp] theorem ticked_fwd : s.ticked.fwd = s.fwd := rfl
@[simp] theorem ticked_rev : s.ticked.rev = s.rev := rfl
@[simp] theorem ticked_pad : s.ticked.pad = s.pad := rfl
@[simp] theorem ticked_name : s.ticked.name = s.name := rfl
@[simp] theorem ticked_nameSet : s.ticked.nameSet = s.nameSet := rfl
@[simp] theorem ticked_phase : s.ticked.phase = s.phase := rfl
@[simp] theorem ticked_cfgCause : s.ticked.cfgCause = s.cfgCause := rfl
@[simp] theorem ticked_err : s.ticked.err = s.err := rfl
@[simp] theorem ticked_engine : s.ticked.engine = s.engine.map fun e => ⟨e.word, e.wait - 1⟩ := rfl
@[simp] theorem ticked_mem : s.ticked.mem = s.mem := rfl
@[simp] theorem ticked_inLen : s.ticked.inLen = s.inLen := rfl
@[simp] theorem ticked_outLen : s.ticked.outLen = s.outLen := rfl
@[simp] theorem ticked_hostOps : s.ticked.hostOps = s.hostOps := rfl
@[simp] theorem ticked_reads : s.ticked.reads = s.reads := rfl
@[simp] theorem ticked_epoch : s.ticked.epoch = s.epoch := rfl
@[simp] theorem ticked_issues : s.ticked.issues = s.issues := rfl

end Sys2Proof.Machine
end

