-- ==== Sys2Proof/Laws/Ops.lean ====
section
/-! SUPPORT. What the shared operations can do: one lemma says everything each of them answers. -/

namespace Sys2Proof.Machine

/-- In FAULT a command is ignored (R210). -/
theorem unlessFault_fault {s : State} (h : s.phase = .fault) (k : Answer) :
    unlessFault s k = .next (ignoreCommand s) := if_pos h

theorem unlessFault_ne {s : State} (h : s.phase ≠ .fault) (k : Answer) : unlessFault s k = k := if_neg h

/-- In its phase a command takes its own effect (R206). -/
theorem inPhase_eq {ph : Phase} {s : State} (h : s.phase = ph) (hf : ph ≠ .fault) (k : Answer) :
    inPhase ph s k = k := by
  rw [inPhase, unlessFault_ne (h ▸ hf), if_pos h]

/-- In the other phase a command raises ERR_PHASE (R206). -/
theorem inPhase_ne {ph : Phase} {s : State} (h : s.phase ≠ ph) (hf : s.phase ≠ .fault) (k : Answer) :
    inPhase ph s k = .next (raiseError .phase s) := by
  rw [inPhase, unlessFault_ne hf, if_neg h]

/-- Everything the phase check can answer. -/
theorem inPhase_cases (ph : Phase) (s : State) (k : Answer) :
    (s.phase = .fault ∧ inPhase ph s k = .next (ignoreCommand s)) ∨
    (s.phase ≠ .fault ∧ s.phase ≠ ph ∧ inPhase ph s k = .next (raiseError .phase s)) ∨
    (s.phase ≠ .fault ∧ s.phase = ph ∧ inPhase ph s k = k) := by
  by_cases hf : s.phase = .fault
  · exact .inl ⟨hf, unlessFault_fault hf _⟩
  · by_cases h : s.phase = ph
    · exact .inr (.inr ⟨hf, h, inPhase_eq h (h ▸ hf) k⟩)
    · exact .inr (.inl ⟨hf, h, inPhase_ne h hf k⟩)

theorem withOperand_fits {s : State} (h : s.inLen.toNat ≤ s.params.inMax) (k : List Byte → Answer) :
    withOperand s k = k s.operand := if_pos h

theorem withOperand_tooLong {s : State} (h : s.params.inMax < s.inLen.toNat) (k : List Byte → Answer) :
    withOperand s k = .next (raiseError .length s) := if_neg (by omega)

/-- Everything the length rule can answer. -/
theorem withOperand_cases (s : State) (k : List Byte → Answer) :
    (s.params.inMax < s.inLen.toNat ∧ withOperand s k = .next (raiseError .length s)) ∨
    (s.inLen.toNat ≤ s.params.inMax ∧ withOperand s k = k s.operand) := by
  by_cases h : s.inLen.toNat ≤ s.params.inMax
  · exact .inr ⟨h, withOperand_fits h k⟩
  · exact .inl ⟨by omega, withOperand_tooLong (by omega) k⟩

/-- Everything the length rule of DECLARE_MAPPING can answer. -/
theorem withMappingOperand_cases (s : State) (k : List Byte → Answer) :
    ((s.inLen ≠ 32 ∨ s.params.inMax < s.inLen.toNat) ∧
      withMappingOperand s k = .next (raiseError .length s)) ∨
    (s.inLen = 32 ∧ s.inLen.toNat ≤ s.params.inMax ∧ withMappingOperand s k = k s.operand) := by
  unfold withMappingOperand
  split
  · rename_i h
    rcases withOperand_cases s k with ⟨h', e⟩ | ⟨h', e⟩
    · exact .inl ⟨.inr h', e⟩
    · exact .inr ⟨h, h', e⟩
  · rename_i h
    exact .inl ⟨.inl h, rfl⟩

theorem emitResult_fits {t : List Byte} {s : State} (h : t.length ≤ s.params.outMax) :
    emitResult t s = .next (completeOk (s.storeOut t)) := if_pos h

/-- An output command that answers a next state has stored its whole result. -/
theorem emitResult_next {t : List Byte} {s s' : State} (h : emitResult t s = .next s') :
    t.length ≤ s.params.outMax ∧ s' = completeOk (s.storeOut t) := by
  unfold emitResult at h
  split at h
  · rename_i hl
    exact ⟨hl, (Host.Outcome.next.inj h).symm⟩
  · cases h

@[simp] theorem operand_length (s : State) : s.operand.length = s.inLen.toNat := by
  simp [State.operand, State.inBytes]

@[simp] theorem operand_getElem (s : State) (i : Nat) (h : i < s.operand.length) :
    s.operand[i] = s.inByte i := by
  simp [State.operand, State.inBytes]

/-- Two states with the same written bytes and the same draw read the same. -/
theorem readByte_congr {s t : State} (hm : t.mem = s.mem) (he : t.epoch = s.epoch) (a : Nat) :
    t.readByte a = s.readByte a := by
  simp [State.readByte, hm, he]

/-- The byte at `OUT[i]` after a result was stored. -/
theorem outByte_storeOut {s : State} {t : List Byte} {i : Nat} (h : i < t.length) :
    (s.storeOut t).outByte i = t[i] := by
  simp [State.outByte, State.readByte, Memory.read_writeBytes_inside _ _ _ h]

/-- Every byte outside the stored result is as before. -/
theorem readByte_storeOut_outside {s : State} {t : List Byte} {a : Nat}
    (h : a < outBase ∨ outBase + t.length ≤ a) : (s.storeOut t).readByte a = s.readByte a := by
  simp [State.readByte, Memory.read_writeBytes_outside _ _ h]

end Sys2Proof.Machine
end

