-- ==== Sys2Proof/Laws/Step.lean ====
section
/-! SUPPORT. Everything a step can do: the executing command completes, or the host takes its turn. -/

namespace Sys2Proof.Machine

/-- A command that is due to complete runs (R200). -/
theorem step_due {s : State} {w : Word} (h : s.engine = some ⟨w, 0⟩) : step s = runWord w s := by
  simp [step, h]

/-- When no command is due, the host takes its turn on the ticked state. -/
theorem step_hostMoves {s : State} (h : s.HostMoves) : step s = hostTurn s.ticked := by
  unfold step State.ticked
  split
  · rename_i w hw
    exact absurd hw (h w)
  · rename_i w k hw
    simp [hw]
  · rename_i hw
    rw [hw]
    simp only [Option.map_none]
    rw [← hw]

/-- The host moves, or a command is due. -/
theorem hostMoves_or_due (s : State) : s.HostMoves ∨ ∃ w, s.engine = some ⟨w, 0⟩ := by
  by_cases h : ∃ w, s.engine = some ⟨w, 0⟩
  · exact .inr h
  · exact .inl fun w e => h ⟨w, e⟩

@[simp] theorem ticked_busy (s : State) : s.ticked.busy = s.busy := by
  simp [State.busy]

@[simp] theorem ticked_statusWord (s : State) : s.ticked.statusWord = s.statusWord := by
  simp [State.statusWord]

/-- A waiting command changes nothing the host can read (R28, R234). -/
theorem ticked_memRead (s : State) (a : Addr) (n : Width) : s.ticked.memRead a n = s.memRead a n := by
  have hb : ∀ i, s.ticked.inByte i = s.inByte i := fun i => readByte_congr rfl rfl _
  have ho : ∀ i, s.ticked.outByte i = s.outByte i := fun i => readByte_congr rfl rfl _
  simp only [State.memRead, State.readRegion, ticked_statusWord, hb, ho, ticked_params,
    ticked_inLen, ticked_outLen]

/-- A word that decodes runs as its command. -/
theorem runWord_ok {w : Word} {i : Instr} (h : decode w = .ok i) (s : State) : runWord w s = exec i s := by
  simp [runWord, h]

/-- An illegal word is rejected. -/
theorem runWord_error {w : Word} {e : Illegal} (h : decode w = .error e) (s : State) :
    runWord w s = rejectIllegal s := by
  simp [runWord, h]

/-- Everything a host turn that goes on can do. -/
theorem hostTurn_next {s t : State} (h : hostTurn s = .next t) :
    (s.hostOps = [] ∧ t = s) ∨
    (∃ a n rest v, s.hostOps = .read a n :: rest ∧ s.memRead a n = some v ∧
      t = { s.recordRead a n v with hostOps := rest }) ∨
    (∃ a n v rest r, s.hostOps = .write a n v :: rest ∧ regionOf s.params a.toNat n = some r ∧
      hostWrite r n v { s with hostOps := rest } = .next t) ∨
    (∃ rest, s.hostOps = .waitIdle :: rest ∧
      t = if s.busy then s.recordRead statusAddr .word s.statusWord
        else { s.recordRead statusAddr .word s.statusWord with hostOps := rest }) ∨
    (∃ rest, s.hostOps = .reset :: rest ∧ t = resetBlock { s with hostOps := rest }) := by
  unfold hostTurn at h
  split at h
  · rename_i ho
    cases h
    exact .inl ⟨ho, rfl⟩
  · rename_i a n rest ho
    split at h
    · rename_i v hv
      cases h
      exact .inr (.inl ⟨a, n, rest, v, ho, hv, rfl⟩)
    · cases h
  · rename_i a n v rest ho
    split at h
    · rename_i r hr
      exact .inr (.inr (.inl ⟨a, n, v, rest, r, ho, hr, h⟩))
    · cases h
  · rename_i rest ho
    cases h
    exact .inr (.inr (.inr (.inl ⟨rest, ho, rfl⟩)))
  · rename_i rest ho
    cases h
    exact .inr (.inr (.inr (.inr ⟨rest, ho, rfl⟩)))

/-- Everything an allowed host write that goes on can do. -/
theorem hostWrite_next {r : Region} {n : Width} {v : Word} {s t : State}
    (h : hostWrite r n v s = .next t) :
    (r = .cmd ∧ s.busy = false ∧ t = issueCommand v s) ∨
    (r = .inLen ∧ s.busy = false ∧ t = { s with inLen := v }) ∨
    (∃ i, r = .inWindow i ∧ s.busy = false ∧
      t = { s with mem := s.mem.writeBytes (inBase + i) (leBytes v n) }) ∨
    t = s := by
  have key : ∀ u : State, unlessBusy s u = .next t → s.busy = false ∧ t = u := by
    intro u hu
    unfold unlessBusy at hu
    split at hu
    · cases hu
    · rename_i hb
      cases hu
      exact ⟨by simpa using hb, rfl⟩
  cases r with
  | cmd => exact .inl ⟨rfl, key _ h⟩
  | inLen => exact .inr (.inl ⟨rfl, key _ h⟩)
  | inWindow i => exact .inr (.inr (.inl ⟨i, rfl, key _ h⟩))
  | status | outLen | capInMax | capOutMax | outWindow _ | reserved =>
    exact .inr (.inr (.inr (Host.Outcome.next.inj h).symm))

@[simp] theorem leBytes_length (v : Word) (n : Width) : (leBytes v n).length = n.bytes := by
  simp [leBytes]

/-- A window access that R52 allows lies inside the IN window. -/
theorem regionOf_inWindow {p : Params} {a i : Nat} {n : Width}
    (h : regionOf p a n = some (.inWindow i)) : a = inBase + i ∧ i + n.bytes ≤ p.inMax := by
  unfold regionOf at h
  split at h
  · cases h
  · split at h
    · split at h
      · simp only [registerAt] at h
        split at h <;> cases h
      · cases h
    · split at h
      · split at h
        · have hi : a - inBase = i := by simpa using h
          omega
        · cases h
      · split at h
        · split at h <;> cases h
        · cases h

/-- A run takes its first step. -/
theorem run_succ_next {s t : State} (k : Nat) (h : step s = .next t) :
    Sys2Proof.core.run (k + 1) s = Sys2Proof.core.run k t := by
  have h' : Sys2Proof.core.step s = .next t := h
  simp only [Host.Core.run, h']

/-- A run of one step is the step. -/
theorem run_one (s : State) : Sys2Proof.core.run 1 s = step s := by
  have hstep : Sys2Proof.core.step s = step s := rfl
  simp only [Host.Core.run, hstep]
  cases step s <;> rfl

end Sys2Proof.Machine
end

