-- ==== Sys2Proof/Laws/Bus.lean ====
section
/-! SUPPORT. The laws of the host's accesses: which accesses R52 allows and where they fall (R51), what the
host's turn does with one, and the little-endian values (R54). -/

namespace Sys2Proof.Machine

theorem inBase_eq : inBase = 0x100000 := rfl

theorem outBase_eq : outBase = 0x200000 := rfl

/-- A width is 1 to 4 bytes, and both windows start at a multiple of it. -/
theorem Width.bytes_facts (n : Width) :
    1 ≤ n.bytes ∧ n.bytes ≤ 4 ∧ 0x100000 % n.bytes = 0 ∧ 0x200000 % n.bytes = 0 := by
  cases n <;> decide

/-- An aligned 32-bit access of the register block. -/
theorem regionOf_register {p : Params} {a : Addr} (h : a.toNat % 4 = 0) (h' : a.toNat < 0x18) :
    regionOf p a.toNat .word = some (registerAt a.toNat) := by
  simp [regionOf, Width.bytes, h, h']

/-- A naturally aligned access inside the IN window. -/
theorem regionOf_inside_in {p : Params} {i : Nat} {n : Width} (h : i % n.bytes = 0)
    (hb : i + n.bytes ≤ p.inMax) : regionOf p (0x100000 + i) n = some (.inWindow i) := by
  obtain ⟨b1, b2, b3, _⟩ := n.bytes_facts
  have ha : (0x100000 + i) % n.bytes = 0 := by rw [Nat.add_mod, b3, h]; simp
  have e := inBase_eq
  rw [regionOf, if_neg (by simpa using ha), if_neg (by omega), if_pos (by omega), if_pos (by omega)]
  rw [show 0x100000 + i - inBase = i by omega]

/-- A naturally aligned access inside the OUT window. -/
theorem regionOf_inside_out {p : Params} (hv : p.inMax ≤ 2 ^ 20) {i : Nat} {n : Width}
    (h : i % n.bytes = 0) (hb : i + n.bytes ≤ p.outMax) :
    regionOf p (0x200000 + i) n = some (.outWindow i) := by
  obtain ⟨b1, b2, _, b3⟩ := n.bytes_facts
  have ha : (0x200000 + i) % n.bytes = 0 := by rw [Nat.add_mod, b3, h]; simp
  have e := inBase_eq
  have e' := outBase_eq
  rw [regionOf, if_neg (by simpa using ha), if_neg (by omega), if_neg (by omega), if_pos (by omega),
    if_pos (by omega)]
  rw [show 0x200000 + i - outBase = i by omega]

/-- An aligned access outside the registers and the windows (R55). -/
theorem regionOf_outside {p : Params} {a : Nat} {n : Width} (h : a % n.bytes = 0) (h1 : 0x18 ≤ a)
    (h2 : ¬ (inBase ≤ a ∧ a < inBase + p.inMax)) (h3 : ¬ (outBase ≤ a ∧ a < outBase + p.outMax)) :
    regionOf p a n = some .reserved := by
  rw [regionOf, if_neg (by simpa using h), if_neg (by omega), if_neg h2, if_neg h3]

/-- An access that breaks R52 (R53). -/
theorem regionOf_forbidden {p : Params} (hv : p.inMax ≤ 2 ^ 20) {a : Nat} {n : Width}
    (h : a % n.bytes ≠ 0 ∨ (a < 0x18 ∧ n ≠ .word) ∨
      (inBase ≤ a ∧ a < inBase + p.inMax ∧ inBase + p.inMax < a + n.bytes) ∨
      (outBase ≤ a ∧ a < outBase + p.outMax ∧ outBase + p.outMax < a + n.bytes)) :
    regionOf p a n = none := by
  have e := inBase_eq
  have e' := outBase_eq
  by_cases hm : a % n.bytes = 0
  · rw [regionOf, if_neg (by simpa using hm)]
    rcases h with h | ⟨h, h'⟩ | ⟨h1, h2, h3⟩ | ⟨h1, h2, h3⟩
    · exact absurd hm h
    · rw [if_pos h, if_neg h']
    · rw [if_neg (by omega), if_pos ⟨h1, h2⟩, if_neg (by omega)]
    · rw [if_neg (by omega), if_neg (by omega), if_pos ⟨h1, h2⟩, if_neg (by omega)]
  · rw [regionOf, if_pos hm]

/-- The step of a host write that R52 allows. -/
theorem step_write {s : State} {a : Addr} {n : Width} {v : Word} {rest : List HostOp} {r : Region}
    (hm : s.HostMoves) (ho : s.hostOps = .write a n v :: rest)
    (hr : regionOf s.params a.toNat n = some r) :
    step s = hostWrite r n v { s.ticked with hostOps := rest } := by
  have ho' : s.ticked.hostOps = .write a n v :: rest := ho
  rw [step_hostMoves hm, hostTurn, ho']
  simp only [ticked_params, hr]

/-- With BUSY = 0 it is the host's turn, on the state as it is. -/
theorem step_idle {s : State} (h : s.engine = none) : s.HostMoves ∧ s.ticked = s := by
  refine ⟨fun w => by simp [h], ?_⟩
  cases s
  simp only at h
  subst h
  rfl

theorem unlessBusy_idle {s : State} (h : s.engine = none) (t : State) : unlessBusy s t = .next t := by
  simp [unlessBusy, State.busy, h]

theorem unlessBusy_busy {s : State} (h : s.engine.isSome = true) (t : State) :
    unlessBusy s t = .refused .writeWhileBusy := if_pos h

/-- A value put together from bytes has them in little-endian order (R54). -/
theorem leValue_bytes (f : Nat → Byte) (n : Width) :
    (leValue f n).toNat < 2 ^ (8 * n.bytes) ∧
      ∀ k, k < n.bytes → (leValue f n).extractLsb' (8 * k) 8 = f k := by
  constructor
  · cases n with
    | byte =>
      have := (f 0).isLt
      simp only [leValue, Width.bytes, BitVec.toNat_setWidth]
      omega
    | half =>
      have := (f 1 ++ f 0).isLt
      simp only [leValue, Width.bytes, BitVec.toNat_setWidth]
      omega
    | word => exact (leValue f .word).isLt
  · intro k hk
    cases n <;> simp only [Width.bytes, leValue] at * <;> interval_cases k <;>
      · apply BitVec.eq_of_getLsbD_eq
        intro i hi
        simp only [BitVec.getLsbD_extractLsb', BitVec.getLsbD_setWidth, BitVec.getLsbD_append]
        interval_cases i <;> simp

/-- The bytes a value is written as (R54). -/
theorem leBytes_getElem (v : Word) (n : Width) (k : Nat) (h : k < (leBytes v n).length) :
    (leBytes v n)[k] = v.extractLsb' (8 * k) 8 := by
  simp [leBytes]

end Sys2Proof.Machine
end

