-- ==== Sys2Proof/Laws/Tables.lean ====
section
/-! SUPPORT. The laws of the lookup tables and of code-identities, and what FINALIZE's three checks say. -/

namespace Sys2Proof.Machine

theorem cid_eq_none_iff (b : Byte) : cid b = none ↔ isSymbol b = false := by
  simp [cid, isSymbol]

theorem cid_isSome_iff (b : Byte) : (cid b).isSome = true ↔ isSymbol b = true := by
  simp [cid, isSymbol]

/-- `cid(b) = b - 0x30` (R12). -/
theorem cid_val {b : Byte} {c : Fin 75} (h : cid b = some c) : c.val = b.toNat - 0x30 := by
  unfold cid at h
  split at h
  · cases h; rfl
  · cases h

/-- `cid('=') = 13` (R12). -/
theorem cid_padChar : cid padChar = some padCid := by decide

@[simp] theorem Fwd.get_put_same (f : Fwd) (v : Value) (b : Byte) : (f.put v b).get v = some b := by
  simp [Fwd.get, Fwd.put]

theorem Fwd.get_put_other (f : Fwd) {v w : Value} (b : Byte) (h : w ≠ v) :
    (f.put v b).get w = f.get w := by
  have : v.toNat ≠ w.toNat := fun e => h (BitVec.eq_of_toNat_eq e.symm)
  simp [Fwd.get, Fwd.put, Vector.getElem_set_ne, this]

@[simp] theorem Rev.get_put_same (r : Rev) (c : Fin 75) (v : Value) : (r.put c v).get c = some v := by
  simp [Rev.get, Rev.put]

theorem Rev.get_put_other (r : Rev) {c d : Fin 75} (v : Value) (h : d ≠ c) :
    (r.put c v).get d = r.get d := by
  have : c.val ≠ d.val := fun e => h (Fin.ext e.symm)
  simp [Rev.get, Rev.put, Vector.getElem_set_ne, this]

@[simp] theorem Fwd.get_clear (v : Value) : Fwd.get (Vector.replicate 32 none) v = none := by
  simp [Fwd.get]

@[simp] theorem Rev.get_clear (c : Fin 75) : Rev.get (Vector.replicate 75 none) c = none := by
  simp [Rev.get]

/-- What one Symbol write does to a REV entry. -/
theorem Rev.get_putSymbol (r : Rev) (b : Byte) (v : Value) (c : Fin 75) :
    (r.putSymbol b v).get c = if cid b = some c then some v else r.get c := by
  unfold Rev.putSymbol
  split
  · rename_i d hd
    by_cases h : c = d
    · subst h; simp [hd]
    · rw [Rev.get_put_other _ _ h, if_neg]
      intro e
      exact h (Option.some.inj (hd ▸ e)).symm
  · rename_i hd
    simp [hd]

theorem Fwd.incomplete_iff (f : Fwd) : f.incomplete = true ↔ ∃ v : Value, f.get v = none := by
  simp only [Fwd.incomplete, List.any_eq_true, Option.isNone_iff_eq_none]
  constructor
  · rintro ⟨e, he, rfl⟩
    obtain ⟨i, hi, h⟩ := List.getElem_of_mem he
    have hi' : i < 32 := by simpa using hi
    refine ⟨BitVec.ofNat 5 i, ?_⟩
    have : (BitVec.ofNat 5 i).toNat = i := by
      rw [BitVec.toNat_ofNat]; exact Nat.mod_eq_of_lt hi'
    simpa [Fwd.get, this] using h
  · rintro ⟨v, hv⟩
    exact ⟨_, hv ▸ (by simp [Fwd.get]), rfl⟩

theorem Rev.holds_iff (r : Rev) (v : Value) : r.holds v = true ↔ ∃ c : Fin 75, r.get c = some v := by
  simp only [Rev.holds, List.any_eq_true, beq_iff_eq]
  constructor
  · rintro ⟨e, he, rfl⟩
    obtain ⟨i, hi, h⟩ := List.getElem_of_mem he
    exact ⟨⟨i, by simpa using hi⟩, by simpa [Rev.get] using h⟩
  · rintro ⟨c, hc⟩
    exact ⟨_, hc ▸ (by simp [Rev.get]), rfl⟩

theorem mem_allValues (v : Value) : v ∈ allValues :=
  List.mem_map.mpr ⟨v.toNat, List.mem_range.mpr v.isLt, by simp⟩

theorem Rev.notSurjective_iff (r : Rev) :
    r.notSurjective = true ↔ ∃ v : Value, ∀ c : Fin 75, r.get c ≠ some v := by
  simp only [Rev.notSurjective, List.any_eq_true, Bool.not_eq_true', ← Bool.not_eq_true,
    Rev.holds_iff, not_exists]
  exact ⟨fun ⟨v, _, h⟩ => ⟨v, h⟩, fun ⟨v, h⟩ => ⟨v, mem_allValues v, h⟩⟩

theorem padNotZero_iff (pad : Bool) (r : Rev) :
    padNotZero pad r = true ↔ pad = true ∧ r.get padCid ≠ some 0 := by
  simp [padNotZero]

/-- FINALIZE finds no violated invariant exactly when the slot meets R36. -/
theorem State.finalizeCause_none_iff (s : State) :
    s.finalizeCause = CfgCause.none ↔ s.SlotOk := by
  have key : s.finalizeCause = CfgCause.none ↔
      ¬ s.fwd.incomplete = true ∧ ¬ s.rev.notSurjective = true ∧ ¬ padNotZero s.pad s.rev = true := by
    simp [State.finalizeCause, CfgCause.none]
  rw [key, Fwd.incomplete_iff, Rev.notSurjective_iff, padNotZero_iff]
  constructor
  · rintro ⟨h1, h2, h3⟩
    refine ⟨fun v => ?_, fun v => ?_, fun hp => ?_⟩
    · exact Option.ne_none_iff_exists'.mp fun e => h1 ⟨v, e⟩
    · by_contra hc
      exact h2 ⟨v, fun c e => hc ⟨c, e⟩⟩
    · by_contra hc
      exact h3 ⟨hp, hc⟩
  · rintro ⟨h1, h2, h3⟩
    refine ⟨?_, ?_, ?_⟩
    · rintro ⟨v, hv⟩
      obtain ⟨b, hb⟩ := h1 v
      simp [hv] at hb
    · rintro ⟨v, hv⟩
      obtain ⟨c, hc⟩ := h2 v
      exact hv c hc
    · rintro ⟨hp, hv⟩
      exact hv (h3 hp)

end Sys2Proof.Machine
end

