-- ==== Sys2Proof/Laws/Codec.lean ====
section
/-! SUPPORT. The laws of the codec's parts: chunks, groups and their inverse, lookups over a list, and where
the bytes of a list of blocks stand in its concatenation. -/

namespace Sys2Proof.Machine

/-- A list on which every lookup succeeds is looked up whole. -/
theorem mapM_eq_some {α β : Type} {f : α → Option β} {g : α → β} {l : List α}
    (h : ∀ x ∈ l, f x = some (g x)) : l.mapM f = some (l.map g) := by
  induction l with
  | nil => rfl
  | cons x l ih =>
    rw [List.mapM_cons, h x List.mem_cons_self, ih fun y hy => h y (List.mem_cons_of_mem _ hy)]
    rfl

/-- One failing lookup fails the list, and only that does. -/
theorem mapM_eq_none {α β : Type} {f : α → Option β} {l : List α} :
    l.mapM f = none ↔ ∃ x ∈ l, f x = none := by
  induction l with
  | nil => simp [List.mapM_nil]
  | cons x l ih =>
    rw [List.mapM_cons]
    cases hx : f x with
    | none => simp [hx]
    | some y =>
      cases hl : l.mapM f with
      | none => simpa [hx] using ih.mp hl
      | some ys =>
        have : ¬ ∃ x ∈ l, f x = none := fun h => by simp [ih.mpr h] at hl
        simpa [hx] using this

/-- The results of a successful lookup, one by one. -/
theorem mapM_getElem {α β : Type} {f : α → Option β} {l : List α} {r : List β}
    (h : l.mapM f = some r) : r.length = l.length ∧
      ∀ i (hi : i < l.length) (hr : i < r.length), f l[i] = some r[i] := by
  induction l generalizing r with
  | nil =>
    obtain rfl : r = [] := by simpa [List.mapM_nil] using h.symm
    simp
  | cons x l ih =>
    rw [List.mapM_cons] at h
    cases hx : f x with
    | none => simp [hx] at h
    | some y =>
      cases hl : l.mapM f with
      | none => simp [hx, hl] at h
      | some ys =>
        obtain rfl : y :: ys = r := by simpa [hx, hl] using h
        obtain ⟨hlen, hget⟩ := ih hl
        refine ⟨by simp [hlen], fun i hi hr => ?_⟩
        cases i with
        | zero => simpa using hx
        | succ i => simpa using hget i (by simpa using hi) (by simpa using hr)

/-- The number of chunks. -/
@[simp] theorem chunksOf_length {α : Type} (k : Nat) (l : List α) :
    (chunksOf k l).length = (l.length + k - 1) / k := by
  simp [chunksOf]

/-- Chunk `c`. -/
theorem chunksOf_getElem {α : Type} (k : Nat) (l : List α) (c : Nat) (h : c < (chunksOf k l).length) :
    (chunksOf k l)[c] = (l.drop (k * c)).take k := by
  simp [chunksOf]

/-- In a list of blocks of `w` elements, the last one at most as long, element `j` of block `k` is element
`w*k + j` of the concatenation. -/
theorem getElem?_flatten_blocks {α : Type} (w : Nat) (bs : List (List α))
    (hw : ∀ i (h : i < bs.length), i + 1 < bs.length → bs[i].length = w)
    (k j : Nat) (hk : k < bs.length) (hj : j < bs[k].length) :
    bs.flatten[w * k + j]? = some bs[k][j] := by
  induction bs generalizing k with
  | nil => simp at hk
  | cons b bs ih =>
    cases k with
    | zero =>
      have hj' : j < b.length := by simpa using hj
      simp [List.getElem?_append_left hj']
    | succ k =>
      have hb : b.length = w := by
        have := hw 0 (by simp) (by simp only [List.length_cons] at hk ⊢; omega)
        simpa using this
      have hk' : k < bs.length := by simpa using hk
      have := ih (fun i h h' => by
        have := hw (i + 1) (by simpa using h) (by simpa using h')
        simpa using this) k hk' (by simpa using hj)
      rw [List.flatten_cons, List.getElem?_append_right (by rw [hb, Nat.mul_succ]; omega), hb,
        show w * (k + 1) + j - w = w * k + j by rw [Nat.mul_succ]; omega, this]
      simp

/-- The length of the concatenation of `m` blocks of `w` elements and a last block. -/
theorem length_flatten_blocks {α : Type} (w m : Nat) (bs : List (List α)) (hm : bs.length = m + 1)
    (hw : ∀ i (h : i < bs.length), i + 1 < bs.length → bs[i].length = w) :
    bs.flatten.length = w * m + (bs[m]'(by omega)).length := by
  induction bs generalizing m with
  | nil => simp at hm
  | cons b bs ih =>
    cases m with
    | zero =>
      obtain rfl : bs = [] := List.eq_nil_of_length_eq_zero (by simpa using hm)
      simp
    | succ m =>
      have hb : b.length = w := by
        have := hw 0 (by simp) (by simp only [List.length_cons] at hm ⊢; omega)
        simpa using this
      have := ih m (by simpa using hm) (fun i h h' => by
        have := hw (i + 1) (by simpa using h) (by simpa using h')
        simpa using this)
      rw [List.flatten_cons, List.length_append, hb, this, Nat.mul_succ]
      simp only [List.getElem_cons_succ]
      omega

@[simp] theorem unpack_length (v : List Value) : (unpack v).length = 5 := by simp [unpack]

/-- Byte `t` of an unpacked chunk (R154). -/
theorem unpack_getElem (v : List Value) (t : Nat) (h : t < (unpack v).length) :
    (unpack v)[t] = (valuesWord v).extractLsb' (32 - 8 * t) 8 := by
  simp [unpack]

/-- The eight groups of a 40-bit word put together again (R132, R154). -/
theorem groups_reassemble (w : BitVec 40) :
    (((((((groupOf w 0 ++ groupOf w 1) ++ groupOf w 2) ++ groupOf w 3) ++ groupOf w 4) ++ groupOf w 5) ++
      groupOf w 6) ++ groupOf w 7) = w := by
  simp only [groupOf]
  rw [BitVec.extractLsb'_append_extractLsb'_eq_extractLsb' (by rfl),
    BitVec.extractLsb'_append_extractLsb'_eq_extractLsb' (by rfl),
    BitVec.extractLsb'_append_extractLsb'_eq_extractLsb' (by rfl),
    BitVec.extractLsb'_append_extractLsb'_eq_extractLsb' (by rfl),
    BitVec.extractLsb'_append_extractLsb'_eq_extractLsb' (by rfl),
    BitVec.extractLsb'_append_extractLsb'_eq_extractLsb' (by rfl),
    BitVec.extractLsb'_append_extractLsb'_eq_extractLsb' (by rfl)]
  exact BitVec.extractLsb'_eq_self

/-- The five bytes of the word of a chunk (R132). -/
theorem chunkWord_byte (c : List Byte) (t : Nat) (h : t < 5) :
    (chunkWord c).extractLsb' (32 - 8 * t) 8 = c.getD t 0 := by
  have h5 : t = 0 ∨ t = 1 ∨ t = 2 ∨ t = 3 ∨ t = 4 := by omega
  generalize h0 : c.getD 0 0 = b0
  generalize h1 : c.getD 1 0 = b1
  generalize h2 : c.getD 2 0 = b2
  generalize h3 : c.getD 3 0 = b3
  generalize h4 : c.getD 4 0 = b4
  rcases h5 with rfl | rfl | rfl | rfl | rfl <;>
    simp only [chunkWord, h0, h1, h2, h3, h4] <;>
    · apply BitVec.eq_of_getLsbD_eq
      intro i hi
      simp only [BitVec.getLsbD_extractLsb', BitVec.getLsbD_append]
      interval_cases i <;> rfl

end Sys2Proof.Machine
end

