-- ==== Sys2Proof/Laws/Exec.lean ====
section
/-! SUPPORT. Everything each command can answer, in the order of the checks (R204): one lemma a command, from
which its frame, its errors and its completion follow without unfolding its meaning. -/

namespace Sys2Proof.Machine

/-- A phase other than FAULT and `ph`: the command raises ERR_PHASE. -/
abbrev WrongPhase (ph : Phase) (s : State) : Prop := s.phase ≠ .fault ∧ s.phase ≠ ph

theorem execNew_cases (s : State) :
    (s.phase = .fault ∧ execNew s = .next (ignoreCommand s)) ∨
    (s.phase ≠ .fault ∧ execNew s = .next (completeOk s.freshSlot)) := by
  by_cases h : s.phase = .fault
  · exact .inl ⟨h, unlessFault_fault h _⟩
  · exact .inr ⟨h, unlessFault_ne h _⟩

/-- The phase check and then the length rule: everything they can answer. -/
theorem inPhase_withOperand_cases (ph : Phase) (s : State) (k : List Byte → Answer) :
    (s.phase = .fault ∧ inPhase ph s (withOperand s k) = .next (ignoreCommand s)) ∨
    (WrongPhase ph s ∧ inPhase ph s (withOperand s k) = .next (raiseError .phase s)) ∨
    (s.phase ≠ .fault ∧ s.phase = ph ∧ s.params.inMax < s.inLen.toNat ∧
      inPhase ph s (withOperand s k) = .next (raiseError .length s)) ∨
    (s.phase ≠ .fault ∧ s.phase = ph ∧ s.inLen.toNat ≤ s.params.inMax ∧
      inPhase ph s (withOperand s k) = k s.operand) := by
  rcases inPhase_cases ph s (withOperand s k) with ⟨h, e⟩ | ⟨h, h', e⟩ | ⟨h, h', e⟩
  · exact .inl ⟨h, e⟩
  · exact .inr (.inl ⟨⟨h, h'⟩, e⟩)
  · rcases withOperand_cases s k with ⟨hl, el⟩ | ⟨hl, el⟩
    · exact .inr (.inr (.inl ⟨h, h', hl, e.trans el⟩))
    · exact .inr (.inr (.inr ⟨h, h', hl, e.trans el⟩))

theorem execSetName_cases (s : State) :
    (s.phase = .fault ∧ execSetName s = .next (ignoreCommand s)) ∨
    (WrongPhase .building s ∧ execSetName s = .next (raiseError .phase s)) ∨
    (s.phase ≠ .fault ∧ s.phase = .building ∧ s.params.inMax < s.inLen.toNat ∧
      execSetName s = .next (raiseError .length s)) ∨
    (s.phase ≠ .fault ∧ s.phase = .building ∧ s.inLen.toNat ≤ s.params.inMax ∧
      execSetName s = .next (completeOk { s with name := s.operand, nameSet := true })) :=
  inPhase_withOperand_cases _ s _

theorem execSetPadding_cases (en : Bool) (s : State) :
    (s.phase = .fault ∧ execSetPadding en s = .next (ignoreCommand s)) ∨
    (WrongPhase .building s ∧ execSetPadding en s = .next (raiseError .phase s)) ∨
    (s.phase ≠ .fault ∧ s.phase = .building ∧ execSetPadding en s =
      .next (completeOk { s with pad := en, rev := if en then s.rev.put padCid 0 else s.rev })) := by
  rcases inPhase_cases .building s
    (.next (completeOk { s with pad := en, rev := if en then s.rev.put padCid 0 else s.rev }))
    with h | ⟨h, h', e⟩ | h
  · exact .inl h
  · exact .inr (.inl ⟨⟨h, h'⟩, e⟩)
  · exact .inr (.inr h)

theorem execDeclareMapping_cases (s : State) :
    (s.phase = .fault ∧ execDeclareMapping s = .next (ignoreCommand s)) ∨
    (WrongPhase .building s ∧ execDeclareMapping s = .next (raiseError .phase s)) ∨
    (s.phase ≠ .fault ∧ s.phase = .building ∧ (s.inLen ≠ 32 ∨ s.params.inMax < s.inLen.toNat) ∧
      execDeclareMapping s = .next (raiseError .length s)) ∨
    (s.phase ≠ .fault ∧ s.phase = .building ∧ s.inLen = 32 ∧ s.inLen.toNat ≤ s.params.inMax ∧
      execDeclareMapping s = .next (completeOk { s with
        fwd := (declareFrom 0 s.operand (s.fwd, s.rev)).1
        rev := (declareFrom 0 s.operand (s.fwd, s.rev)).2 })) := by
  rcases inPhase_cases .building s (withMappingOperand s fun symbols =>
      .next (completeOk { s with
        fwd := (declareFrom 0 symbols (s.fwd, s.rev)).1
        rev := (declareFrom 0 symbols (s.fwd, s.rev)).2 })) with h | ⟨h, h', e⟩ | ⟨h, h', e⟩
  · exact .inl h
  · exact .inr (.inl ⟨⟨h, h'⟩, e⟩)
  · rcases withMappingOperand_cases s (fun symbols =>
      .next (completeOk { s with
        fwd := (declareFrom 0 symbols (s.fwd, s.rev)).1
        rev := (declareFrom 0 symbols (s.fwd, s.rev)).2 })) with ⟨hl, el⟩ | ⟨hl, hl', el⟩
    · exact .inr (.inr (.inl ⟨h, h', hl, e.trans el⟩))
    · exact .inr (.inr (.inr ⟨h, h', hl, hl', e.trans el⟩))

theorem execDeclareAliases_cases (val : Value) (s : State) :
    (s.phase = .fault ∧ execDeclareAliases val s = .next (ignoreCommand s)) ∨
    (WrongPhase .building s ∧ execDeclareAliases val s = .next (raiseError .phase s)) ∨
    (s.phase ≠ .fault ∧ s.phase = .building ∧ s.params.inMax < s.inLen.toNat ∧
      execDeclareAliases val s = .next (raiseError .length s)) ∨
    (s.phase ≠ .fault ∧ s.phase = .building ∧ s.inLen.toNat ≤ s.params.inMax ∧
      execDeclareAliases val s = .next (completeOk
        { s with rev := s.operand.foldl (fun r b => r.putSymbol b val) s.rev })) :=
  inPhase_withOperand_cases _ s _

theorem execFinalize_cases (s : State) :
    (s.phase = .fault ∧ execFinalize s = .next (ignoreCommand s)) ∨
    (WrongPhase .building s ∧ execFinalize s = .next (raiseError .phase s)) ∨
    (s.phase ≠ .fault ∧ s.phase = .building ∧ s.SlotOk ∧
      execFinalize s = .next (completeOk { s with phase := .frozen })) ∨
    (s.phase ≠ .fault ∧ s.phase = .building ∧ ¬ s.SlotOk ∧ execFinalize s =
      .next (raiseError .config { s with cfgCause := s.finalizeCause, phase := .fault })) := by
  rcases inPhase_cases .building s
    (if s.finalizeCause = CfgCause.none then .next (completeOk { s with phase := .frozen })
      else .next (raiseError .config { s with cfgCause := s.finalizeCause, phase := .fault }))
    with h | ⟨h, h', e⟩ | ⟨h, h', e⟩
  · exact .inl h
  · exact .inr (.inl ⟨⟨h, h'⟩, e⟩)
  · by_cases hc : s.finalizeCause = CfgCause.none
    · exact .inr (.inr (.inl ⟨h, h', s.finalizeCause_none_iff.mp hc, e.trans (if_pos hc)⟩))
    · exact .inr (.inr (.inr ⟨h, h', fun ok => hc (s.finalizeCause_none_iff.mpr ok), e.trans (if_neg hc)⟩))

theorem execEncode_cases (s : State) :
    (s.phase = .fault ∧ execEncode s = .next (ignoreCommand s)) ∨
    (WrongPhase .frozen s ∧ execEncode s = .next (raiseError .phase s)) ∨
    (s.phase ≠ .fault ∧ s.phase = .frozen ∧ s.params.inMax < s.inLen.toNat ∧
      execEncode s = .next (raiseError .length s)) ∨
    (s.phase ≠ .fault ∧ s.phase = .frozen ∧ s.inLen.toNat ≤ s.params.inMax ∧
      ((∃ t, encodeText s.fwd s.pad s.operand = some t ∧ execEncode s = emitResult t s) ∨
        (encodeText s.fwd s.pad s.operand = none ∧ execEncode s = .fault .forwardEntryInvalid))) := by
  rcases inPhase_withOperand_cases .frozen s (fun data =>
    match encodeText s.fwd s.pad data with
    | some t => emitResult t s
    | none => .fault .forwardEntryInvalid) with h | h | h | ⟨h, h', hl, e⟩
  · exact .inl h
  · exact .inr (.inl h)
  · exact .inr (.inr (.inl h))
  · refine .inr (.inr (.inr ⟨h, h', hl, ?_⟩))
    cases ht : encodeText s.fwd s.pad s.operand with
    | some t => exact .inl ⟨t, rfl, e.trans (by simp [ht])⟩
    | none => exact .inr ⟨rfl, e.trans (by simp [ht])⟩

theorem execDecode_cases (s : State) :
    (s.phase = .fault ∧ execDecode s = .next (ignoreCommand s)) ∨
    (WrongPhase .frozen s ∧ execDecode s = .next (raiseError .phase s)) ∨
    (s.phase ≠ .fault ∧ s.phase = .frozen ∧ s.params.inMax < s.inLen.toNat ∧
      execDecode s = .next (raiseError .length s)) ∨
    (s.phase ≠ .fault ∧ s.phase = .frozen ∧ s.inLen.toNat ≤ s.params.inMax ∧
      ((∃ d, decodeText s.rev s.operand = some d ∧ execDecode s = emitResult d s) ∨
        (decodeText s.rev s.operand = none ∧ execDecode s = .next (raiseError .decode s)))) := by
  rcases inPhase_withOperand_cases .frozen s (fun text =>
    match decodeText s.rev text with
    | some d => emitResult d s
    | none => .next (raiseError .decode s)) with h | h | h | ⟨h, h', hl, e⟩
  · exact .inl h
  · exact .inr (.inl h)
  · exact .inr (.inr (.inl h))
  · refine .inr (.inr (.inr ⟨h, h', hl, ?_⟩))
    cases hd : decodeText s.rev s.operand with
    | some d => exact .inl ⟨d, rfl, e.trans (by simp [hd])⟩
    | none => exact .inr ⟨rfl, e.trans (by simp [hd])⟩

theorem execGetName_cases (s : State) :
    (s.phase = .fault ∧ execGetName s = .next (ignoreCommand s)) ∨
    (WrongPhase .frozen s ∧ execGetName s = .next (raiseError .phase s)) ∨
    (s.phase ≠ .fault ∧ s.phase = .frozen ∧ execGetName s = emitResult s.shownName s) := by
  rcases inPhase_cases .frozen s (emitResult s.shownName s) with h | ⟨h, h', e⟩ | h
  · exact .inl h
  · exact .inr (.inl ⟨⟨h, h'⟩, e⟩)
  · exact .inr (.inr h)

theorem execGetPadding_cases (s : State) :
    (s.phase = .fault ∧ execGetPadding s = .next (ignoreCommand s)) ∨
    (WrongPhase .frozen s ∧ execGetPadding s = .next (raiseError .phase s)) ∨
    (s.phase ≠ .fault ∧ s.phase = .frozen ∧ execGetPadding s = emitResult [paddingByte s.pad] s) := by
  rcases inPhase_cases .frozen s (emitResult [paddingByte s.pad] s) with h | ⟨h, h', e⟩ | h
  · exact .inl h
  · exact .inr (.inl ⟨⟨h, h'⟩, e⟩)
  · exact .inr (.inr h)

/-- Everything a command that goes on can do to the state: it is ignored in FAULT, raises an error that
writes only ERR, changes the slot (a builder command), fails to finalize, or stores a result. -/
theorem exec_next {i : Instr} {s t : State} (h : exec i s = .next t) :
    (s.phase = .fault ∧ t = ignoreCommand s) ∨
    (s.phase ≠ .fault ∧ ∃ e, e ≠ .ok ∧ e ≠ .config ∧ t = raiseError e s) ∨
    (s.phase ≠ .fault ∧ i = .new ∧ t = completeOk s.freshSlot) ∨
    (s.phase = .building ∧ i = .setName ∧ s.inLen.toNat ≤ s.params.inMax ∧
      t = completeOk { s with name := s.operand, nameSet := true }) ∨
    (s.phase = .building ∧ ∃ p r, t = completeOk { s with pad := p, rev := r } ∧
      (i = .setPadding p ∧ r = (if p then s.rev.put padCid 0 else s.rev) ∨
        (∃ val, i = .declareAliases val ∧ p = s.pad ∧
          r = s.operand.foldl (fun r b => r.putSymbol b val) s.rev))) ∨
    (s.phase = .building ∧ i = .declareMapping ∧ s.inLen = 32 ∧ s.inLen.toNat ≤ s.params.inMax ∧
      t = completeOk { s with
        fwd := (declareFrom 0 s.operand (s.fwd, s.rev)).1
        rev := (declareFrom 0 s.operand (s.fwd, s.rev)).2 }) ∨
    (s.phase = .building ∧ i = .finalize ∧ s.SlotOk ∧ t = completeOk { s with phase := .frozen }) ∨
    (s.phase = .building ∧ i = .finalize ∧ ¬ s.SlotOk ∧
      t = raiseError .config { s with cfgCause := s.finalizeCause, phase := .fault }) ∨
    (s.phase = .frozen ∧ i.hasOutput = true ∧
      ∃ d, d.length ≤ s.params.outMax ∧ t = completeOk (s.storeOut d)) := by
  have hn : ∀ {u : State} {x : Answer}, x = .next u → x = .next t → t = u := by
    intro u x h1 h2
    exact Host.Outcome.next.inj (h2.symm.trans h1)
  cases i with
  | new =>
    rcases execNew_cases s with ⟨hp, e⟩ | ⟨hp, e⟩
    · exact .inl ⟨hp, hn e h⟩
    · exact .inr (.inr (.inl ⟨hp, rfl, hn e h⟩))
  | setName =>
    rcases execSetName_cases s with ⟨hp, e⟩ | ⟨hp, e⟩ | ⟨hp, _, _, e⟩ | ⟨_, hp, hl, e⟩
    · exact .inl ⟨hp, hn e h⟩
    · exact .inr (.inl ⟨hp.1, .phase, by decide, by decide, hn e h⟩)
    · exact .inr (.inl ⟨hp, .length, by decide, by decide, hn e h⟩)
    · exact .inr (.inr (.inr (.inl ⟨hp, rfl, hl, hn e h⟩)))
  | setPadding en =>
    rcases execSetPadding_cases en s with ⟨hp, e⟩ | ⟨hp, e⟩ | ⟨_, hp, e⟩
    · exact .inl ⟨hp, hn e h⟩
    · exact .inr (.inl ⟨hp.1, .phase, by decide, by decide, hn e h⟩)
    · exact .inr (.inr (.inr (.inr (.inl ⟨hp, en, _, hn e h, .inl ⟨rfl, rfl⟩⟩))))
  | declareMapping =>
    rcases execDeclareMapping_cases s with ⟨hp, e⟩ | ⟨hp, e⟩ | ⟨hp, _, _, e⟩ | ⟨_, hp, hl, hm, e⟩
    · exact .inl ⟨hp, hn e h⟩
    · exact .inr (.inl ⟨hp.1, .phase, by decide, by decide, hn e h⟩)
    · exact .inr (.inl ⟨hp, .length, by decide, by decide, hn e h⟩)
    · exact .inr (.inr (.inr (.inr (.inr (.inl ⟨hp, rfl, hl, hm, hn e h⟩)))))
  | declareAliases val =>
    rcases execDeclareAliases_cases val s with ⟨hp, e⟩ | ⟨hp, e⟩ | ⟨hp, _, _, e⟩ | ⟨_, hp, _, e⟩
    · exact .inl ⟨hp, hn e h⟩
    · exact .inr (.inl ⟨hp.1, .phase, by decide, by decide, hn e h⟩)
    · exact .inr (.inl ⟨hp, .length, by decide, by decide, hn e h⟩)
    · exact .inr (.inr (.inr (.inr (.inl ⟨hp, s.pad, _, hn e h, .inr ⟨val, rfl, rfl, rfl⟩⟩))))
  | finalize =>
    rcases execFinalize_cases s with ⟨hp, e⟩ | ⟨hp, e⟩ | ⟨_, hp, hs, e⟩ | ⟨_, hp, hs, e⟩
    · exact .inl ⟨hp, hn e h⟩
    · exact .inr (.inl ⟨hp.1, .phase, by decide, by decide, hn e h⟩)
    · exact .inr (.inr (.inr (.inr (.inr (.inr (.inl ⟨hp, rfl, hs, hn e h⟩))))))
    · exact .inr (.inr (.inr (.inr (.inr (.inr (.inr (.inl ⟨hp, rfl, hs, hn e h⟩)))))))
  | encode =>
    rcases execEncode_cases s with ⟨hp, e⟩ | ⟨hp, e⟩ | ⟨hp, _, _, e⟩ | ⟨_, hp, _, ⟨d, _, e⟩ | ⟨_, e⟩⟩
    · exact .inl ⟨hp, hn e h⟩
    · exact .inr (.inl ⟨hp.1, .phase, by decide, by decide, hn e h⟩)
    · exact .inr (.inl ⟨hp, .length, by decide, by decide, hn e h⟩)
    · exact .inr (.inr (.inr (.inr (.inr (.inr (.inr (.inr
        ⟨hp, rfl, d, emitResult_next (e.symm.trans h)⟩)))))))
    · exact absurd (e.symm.trans h) (by simp)
  | decode =>
    rcases execDecode_cases s with ⟨hp, e⟩ | ⟨hp, e⟩ | ⟨hp, _, _, e⟩ | ⟨hp', hp, _, ⟨d, _, e⟩ | ⟨_, e⟩⟩
    · exact .inl ⟨hp, hn e h⟩
    · exact .inr (.inl ⟨hp.1, .phase, by decide, by decide, hn e h⟩)
    · exact .inr (.inl ⟨hp, .length, by decide, by decide, hn e h⟩)
    · exact .inr (.inr (.inr (.inr (.inr (.inr (.inr (.inr
        ⟨hp, rfl, d, emitResult_next (e.symm.trans h)⟩)))))))
    · exact .inr (.inl ⟨hp', .decode, by decide, by decide, hn e h⟩)
  | getName =>
    rcases execGetName_cases s with ⟨hp, e⟩ | ⟨hp, e⟩ | ⟨_, hp, e⟩
    · exact .inl ⟨hp, hn e h⟩
    · exact .inr (.inl ⟨hp.1, .phase, by decide, by decide, hn e h⟩)
    · exact .inr (.inr (.inr (.inr (.inr (.inr (.inr (.inr
        ⟨hp, rfl, _, emitResult_next (e.symm.trans h)⟩)))))))
  | getPadding =>
    rcases execGetPadding_cases s with ⟨hp, e⟩ | ⟨hp, e⟩ | ⟨_, hp, e⟩
    · exact .inl ⟨hp, hn e h⟩
    · exact .inr (.inl ⟨hp.1, .phase, by decide, by decide, hn e h⟩)
    · exact .inr (.inr (.inr (.inr (.inr (.inr (.inr (.inr
        ⟨hp, rfl, _, emitResult_next (e.symm.trans h)⟩)))))))

end Sys2Proof.Machine
end

