-- ==== Sys2Proof/Laws/Params.lean ====
section
/-! SUPPORT. The free parameters of Config meet R5, and every parameter triple that meets R5 is among them. -/

namespace Sys2Proof

/-- `OUT_MAX` is drawn from the range R5 leaves it. -/
theorem outMax_draw (least k : Nat) (h : least ≤ 2 ^ 20) : least + k % (2 ^ 20 - least + 1) ≤ 2 ^ 20 := by
  have := Nat.mod_lt k (show 0 < 2 ^ 20 - least + 1 by omega)
  omega

theorem Params.ofRaw_valid (rawIn rawOut : Nat) (rawName : List Byte) :
    (Params.ofRaw rawIn rawOut rawName).Valid := by
  have hin : rawIn % 655360 < 655360 := Nat.mod_lt _ (by decide)
  have hname : (rawName.take (2 ^ 20)).length ≤ 2 ^ 20 := List.length_take_le _ _
  have hleast : max (maxEncodedLength (1 + rawIn % 655360)) (rawName.take (2 ^ 20)).length ≤ 2 ^ 20 := by
    refine Nat.max_le.mpr ⟨?_, hname⟩
    simp only [maxEncodedLength]
    omega
  have hout := outMax_draw _ rawOut hleast
  simp only [Params.Valid, Params.ofRaw]
  generalize hm : max (maxEncodedLength (1 + rawIn % 655360)) (rawName.take (2 ^ 20)).length = least at *
  exact ⟨by omega, by omega, hout, by omega, by omega⟩

/-- No block is left out: R5 itself bounds IN_MAX by 655360, since OUT_MAX is at most `2^20`. -/
theorem Params.ofRaw_onto (p : Params) (h : p.Valid) :
    ∃ rawIn rawOut rawName, Params.ofRaw rawIn rawOut rawName = p := by
  obtain ⟨inMax, outMax, name⟩ := p
  obtain ⟨h1, h2, h3, h4, h5⟩ := h
  simp only [maxEncodedLength] at h1 h2 h3 h4 h5
  refine ⟨inMax - 1, outMax - max (maxEncodedLength inMax) name.length, name, ?_⟩
  have hin : 1 + (inMax - 1) % 655360 = inMax := by
    rw [Nat.mod_eq_of_lt (by omega)]
    omega
  have hname : name.take (2 ^ 20) = name := List.take_of_length_le (by omega)
  simp only [Params.ofRaw, hin, hname]
  congr 1
  have hle : max (maxEncodedLength inMax) name.length ≤ outMax := by
    simp only [maxEncodedLength]
    omega
  rw [Nat.mod_eq_of_lt (by omega)]
  omega

theorem Config.params_valid : Config.params.Valid := Params.ofRaw_valid _ _ _

end Sys2Proof
end

