-- ==== Sys2Proof/Laws/PerInstr.lean ====
section
/-! SUPPORT. What holds of every command, stated once and shown command by command: its word is the one of
its row of spec/opcode_table.json. -/

namespace Sys2Proof.Laws.Encoding

/-- The mask of a command's row: the bits its encoding fixes. -/
def rowMask : Instr → Word
  | .setPadding _ => 0xFFFFFFEF
  | .declareAliases _ => 0xFFFFFE0F
  | .new | .setName | .declareMapping | .finalize | .encode | .decode | .getName | .getPadding =>
    0xFFFFFFFF

/-- The match of a command's row: the value of the bits its encoding fixes. -/
def rowMatch : Instr → Word
  | .new => 0x00000001
  | .setName => 0x00000002
  | .setPadding _ => 0x00000003
  | .declareMapping => 0x00000004
  | .declareAliases _ => 0x00000005
  | .finalize => 0x00000006
  | .encode => 0x00000007
  | .decode => 0x00000008
  | .getName => 0x00000009
  | .getPadding => 0x0000000A

/-- The word of a command has the opcode of R74 and the fixed bits of its row, and the command is well
formed. -/
def Statement (i : Instr) : Prop :=
  i.wellFormed = true ∧ opcodeField (Sys2Proof.encode i) = i.opcode ∧
    Sys2Proof.encode i &&& rowMask i = rowMatch i

theorem new : Statement .new := by unfold Statement; decide
theorem setName : Statement .setName := by unfold Statement; decide
theorem setPadding (en : Bool) : Statement (.setPadding en) := by
  unfold Statement; revert en; decide
theorem declareMapping : Statement .declareMapping := by unfold Statement; decide
theorem declareAliases (val : Value) : Statement (.declareAliases val) := by
  unfold Statement; revert val; decide
theorem finalize : Statement .finalize := by unfold Statement; decide
theorem encode : Statement .encode := by unfold Statement; decide
theorem decode : Statement .decode := by unfold Statement; decide
theorem getName : Statement .getName := by unfold Statement; decide
theorem getPadding : Statement .getPadding := by unfold Statement; decide

end Sys2Proof.Laws.Encoding
end

