-- ==== Sys2Proof/Tests/Slice0.lean ====
section
/-! SUPPORT. Tests of the model against the vectors of spec/95_test_vectors.md and the encodings of R71 and
R74, the checks of WellFormed, and for each obligation with hypotheses a state that meets them. -/

namespace Sys2Proof.Tests

open Machine

/-! ## Words written out from the encodings (R71, R74, R75; 95_test_vectors.md 2.1) -/

theorem test_decode_new : decode 0b00000000000000000000000000000001#32 = .ok .new := by decide
theorem test_decode_setName : decode 0b00000000000000000000000000000010#32 = .ok .setName := by decide
theorem test_decode_setPadding_off :
    decode 0b00000000000000000000000000000011#32 = .ok (.setPadding false) := by decide
theorem test_decode_setPadding_on :
    decode 0b00000000000000000000000000010011#32 = .ok (.setPadding true) := by decide
theorem test_decode_declareMapping :
    decode 0b00000000000000000000000000000100#32 = .ok .declareMapping := by decide
theorem test_decode_declareAliases_17 :
    decode 0b00000000000000000000000100010101#32 = .ok (.declareAliases 17) := by decide
theorem test_decode_declareAliases_31 :
    decode 0b00000000000000000000000111110101#32 = .ok (.declareAliases 31) := by decide
theorem test_decode_finalize : decode 0b00000000000000000000000000000110#32 = .ok .finalize := by decide
theorem test_decode_encode : decode 0b00000000000000000000000000000111#32 = .ok .encode := by decide
theorem test_decode_decode : decode 0b00000000000000000000000000001000#32 = .ok .decode := by decide
theorem test_decode_getName : decode 0b00000000000000000000000000001001#32 = .ok .getName := by decide
theorem test_decode_getPadding :
    decode 0b00000000000000000000000000001010#32 = .ok .getPadding := by decide
theorem test_decode_reserved_opcode : decode 0x0000000B = .error .reservedOpcode := by decide
theorem test_decode_reserved_opcode_first : decode 0xFFFFFFF0 = .error .reservedOpcode := by decide
theorem test_decode_new_bit_4 : decode 0x00000011 = .error .reservedBits := by decide
theorem test_decode_finalize_bit_31 : decode 0x80000006 = .error .reservedBits := by decide

/-! ## WellFormed: each constraint of R5 refuses -/

theorem test_params_ok : Params.Valid ⟨64, 128, [0x3F]⟩ := by decide
theorem test_params_no_in : ¬ Params.Valid ⟨0, 128, []⟩ := by decide
theorem test_params_in_too_large : ¬ Params.Valid ⟨2 ^ 20 + 1, 2 ^ 20, []⟩ := by decide
theorem test_params_out_too_large : ¬ Params.Valid ⟨64, 2 ^ 20 + 1, []⟩ := by decide
theorem test_params_out_too_small : ¬ Params.Valid ⟨64, 103, []⟩ := by decide
theorem test_params_name_too_long : ¬ Params.Valid ⟨1, 8, List.replicate 9 0x3F⟩ := by decide
theorem test_instr_wellFormed : (Instr.declareAliases 31).wellFormed = true := by decide

/-! ## Small states -/

/-- The parameters of 95_test_vectors.md section 3. -/
def params : Params := ⟨64, 128, [0x3F]⟩

/-- The block after reset with these parameters. -/
def blank : State := { State.reset with params := params }

/-- "ABCDEFGHIJKLMNOPQRSTUVWXYZ234567" -/
def rfcRow : List Byte :=
  [0x41, 0x42, 0x43, 0x44, 0x45, 0x46, 0x47, 0x48, 0x49, 0x4A, 0x4B, 0x4C, 0x4D, 0x4E, 0x4F, 0x50,
   0x51, 0x52, 0x53, 0x54, 0x55, 0x56, 0x57, 0x58, 0x59, 0x5A, 0x32, 0x33, 0x34, 0x35, 0x36, 0x37]

/-- `s` with an operand in IN. -/
def load (bs : List Byte) (s : State) : State :=
  { s with mem := s.mem.writeBytes 0x100000 bs, inLen := BitVec.ofNat 32 bs.length }

/-- REV after SET_PADDING on a fresh builder. -/
def padRev (pad : Bool) : Rev :=
  if pad then Rev.put (Vector.replicate 75 none) 13 0 else Vector.replicate 75 none

/-- The tables of RFC/P and RFC/U. -/
def rfcTables (pad : Bool) : Fwd × Rev := declareFrom 0 rfcRow (Vector.replicate 32 none, padRev pad)

/-- RFC/P or RFC/U, before FINALIZE. -/
def rfcBuilt (pad : Bool) : State :=
  { blank with fwd := (rfcTables pad).1, rev := (rfcTables pad).2, pad := pad }

/-- RFC/P or RFC/U, FROZEN. -/
def rfc (pad : Bool) : State := { rfcBuilt pad with phase := .frozen }

/-- The state after FINALIZE of a fresh builder (B1). -/
def broken : State :=
  { blank with phase := .fault, err := .config, cfgCause := ⟨true, true, false⟩ }

/-- Does the step go on to a state with property `p`? -/
def Goes (a : Answer) (p : State → Bool) : Bool :=
  match a with
  | .next t => p t
  | .fault _ => false
  | .refused _ => false

/-- ERR and the result are the expected ones. -/
def Gives (a : Answer) (out : List Byte) : Bool :=
  Goes a fun t => t.err == .ok && t.outLen.toNat == out.length &&
    (List.range out.length).map t.outByte == out

/-! ## One command each (95_test_vectors.md 2.2 to 2.7) -/

/-- B14 -/
theorem test_new : Goes (exec .new (rfc true)) (fun t => t.statusWord == 0 && t.rev.get 13 == none) = true := by
  decide
/-- P2, line 2 -/
theorem test_setName : Goes (exec .setName (load [0x62, 0x33, 0x32, 0x78] blank))
    (fun t => t.name == [0x62, 0x33, 0x32, 0x78] && t.nameSet) = true := by decide
/-- B15: a label of no bytes is a label. -/
theorem test_setName_empty : Goes (exec .setName blank) (fun t => t.name == [] && t.nameSet) = true := by decide
/-- P5, line 7 -/
theorem test_setPadding : Goes (exec (.setPadding true) blank)
    (fun t => t.statusWord == 0x00000008 && t.rev.get 13 == some 0) = true := by decide
/-- B10: disabling padding leaves REV as it is. -/
theorem test_setPadding_off : Goes (exec (.setPadding false) { blank with pad := true, rev := padRev true })
    (fun t => !t.pad && t.rev.get 13 == some 0) = true := by decide
/-- P1: REV[17] = Val(0), REV[42] = Val(25), REV[2] = Val(26), REV[7] = Val(31). -/
theorem test_declareMapping : Goes (exec .declareMapping (load rfcRow blank))
    (fun t => t.fwd.get 31 == some 0x37 && t.rev.get 17 == some 0 && t.rev.get 42 == some 25 &&
      t.rev.get 2 == some 26 && t.rev.get 7 == some 31 && t.rev.get 13 == none) = true := by decide +kernel
/-- B7: the first declaration of a value wins, the last position of a Symbol wins. -/
theorem test_declareMapping_again :
    Goes (exec .declareMapping (load ([0x42, 0x41] ++ rfcRow.drop 2) (rfcBuilt false)))
      (fun t => t.fwd.get 0 == some 0x41 && t.fwd.get 1 == some 0x42 && t.rev.get 17 == some 1 &&
        t.rev.get 18 == some 0) = true := by decide +kernel
/-- B12: "O~o" -/
theorem test_declareAliases : Goes (exec (.declareAliases 0) (load [0x4F, 0x7E, 0x6F] (rfcBuilt false)))
    (fun t => t.rev.get 31 == some 0 && t.rev.get 63 == some 0 && t.err == .ok) = true := by decide
/-- B11 -/
theorem test_declareAliases_none : Goes (exec (.declareAliases 0) (rfcBuilt false))
    (fun t => decide (t = rfcBuilt false)) = true := by decide +kernel
/-- B1; STATUS as after B2. -/
theorem test_finalize_fault : Goes (exec .finalize blank) (fun t => t.statusWord == 0x00000354) = true := by
  decide
/-- P1, line 5 -/
theorem test_finalize : Goes (exec .finalize (rfcBuilt true)) (fun t => t.statusWord == 0x0000000A) = true := by
  decide +kernel
/-- E1: "AAAABOJSI2SCS===" -/
theorem test_encode : Gives (exec .encode (load [0x00, 0x00, 0x00, 0xB9, 0x32, 0x46, 0xA4, 0x29] (rfc true)))
    [0x41, 0x41, 0x41, 0x41, 0x42, 0x4F, 0x4A, 0x53, 0x49, 0x32, 0x53, 0x43, 0x53, 0x3D, 0x3D, 0x3D] =
      true := by decide +kernel
/-- FF FF FF FF under RFC/U: "777777Y" -/
theorem test_encode_unpadded : Gives (exec .encode (load [0xFF, 0xFF, 0xFF, 0xFF] (rfc false)))
    [0x37, 0x37, 0x37, 0x37, 0x37, 0x37, 0x59] = true := by decide +kernel
/-- "MZ=XW6==" decodes to 66 41 7B: an inner '=' is value 0. -/
theorem test_decode : Gives (exec .decode (load [0x4D, 0x5A, 0x3D, 0x58, 0x57, 0x36, 0x3D, 0x3D] (rfc true)))
    [0x66, 0x41, 0x7B] = true := by decide
/-- "MY======" is ERR_DECODE under RFC/U, and writes ERR alone. -/
theorem test_decode_unpadded :
    Goes (exec .decode (load [0x4D, 0x59, 0x3D, 0x3D, 0x3D, 0x3D, 0x3D, 0x3D] (rfc false)))
      (fun t => t.statusWord == 0x00000042 && t.outLen == 0) = true := by decide
/-- No name was set: the placeholder "?". -/
theorem test_getName_placeholder : Gives (exec .getName (rfc false)) [0x3F] = true := by decide
/-- The name "b32x". -/
theorem test_getName : Gives (exec .getName { rfc false with name := [0x62, 0x33, 0x32, 0x78], nameSet := true })
    [0x62, 0x33, 0x32, 0x78] = true := by decide
theorem test_getPadding_on : Gives (exec .getPadding (rfc true)) [0x01] = true := by decide
theorem test_getPadding_off : Gives (exec .getPadding (rfc false)) [0x00] = true := by decide

/-! ## One step each -/

/-- A state with a command word due to complete. -/
def due (w : Word) (s : State) : State := { s with engine := some ⟨w, 0⟩ }

/-- A state whose host has one operation left. -/
def op (o : HostOp) (s : State) : State := { s with hostOps := [o] }

/-- 2.7: ERR_ILLEGAL comes before ERR_PHASE and ERR_LENGTH. -/
theorem test_step_illegal : Goes (step (due 0x0000000C { blank with inLen := 0xFFFFFFFF }))
    (fun t => t.statusWord == 0x00000010) = true := by decide
/-- 2.7: ERR_PHASE comes before ERR_LENGTH. -/
theorem test_step_phase : Goes (step (due 0x00000007 { blank with inLen := 0xFFFFFFFF }))
    (fun t => t.statusWord == 0x00000020) = true := by decide
/-- 2.7: DECLARE_MAPPING with IN_LEN = 31. -/
theorem test_step_length : Goes (step (due 0x00000004 { blank with inLen := 31 }))
    (fun t => t.statusWord == 0x00000030) = true := by decide
/-- 2.7: NEW is ignored in FAULT. -/
theorem test_step_fault : Goes (step (op (.write 0 .word 1) broken)) (fun t => t.statusWord == 0x00000354) = true := by
  decide
/-- 2.7: reset leaves FAULT. -/
theorem test_step_reset : Goes (step (op .reset broken)) (fun t => t.statusWord == 0) = true := by decide
/-- R54: the byte at the lowest address is the least significant. -/
theorem test_step_read : Goes (step (op (.read 0x100000 .word) (load [0x11, 0x22, 0x33, 0x44] blank)))
    (fun t => t.reads == [⟨0x100000, .word, 0x44332211⟩]) = true := by decide
/-- R237: a run that ends in FAULT. -/
theorem test_faulted_run : broken.FaultedRun := ⟨⟨rfl, rfl⟩, rfl⟩
/-- The opcode table's bits run as the first command. -/
theorem test_withFetchWord : Goes (step (State.reset.withFetchWord 32 0x00000013)) (fun t => t.pad) = true := by
  decide

/-! ## Witnesses: for each obligation with hypotheses, states that meet them, clause by clause -/

theorem broken_inv : broken.Inv := by
  refine ⟨by decide, Memory.wf_nil, fun c hc => ?_, by decide, by decide, fun v b h => ?_, fun h => ?_, by decide,
    by decide, fun _ => rfl⟩
  · cases hc
  · exact absurd ((Fwd.get_clear v).symm.trans h) (by simp)
  · cases h

theorem rfc_tables (pad : Bool) : (rfc pad).fwd = (rfcBuilt pad).fwd ∧ (rfc pad).rev = (rfcBuilt pad).rev := by
  simp only [rfc, and_self]

theorem rfc_slotOk (pad : Bool) : (rfc pad).SlotOk :=
  (State.finalizeCause_none_iff _).mp (by revert pad; decide +kernel)

/-- An operand changes nothing that R36 and R159 speak of. -/
theorem load_alphabet {s : State} (bs : List Byte) (h : s.SlotOk)
    (hr : s.CanonicalDecodes ∧ s.PadNotCanonical) :
    (load bs s).SlotOk ∧ (load bs s).CanonicalDecodes ∧ (load bs s).PadNotCanonical :=
  ⟨⟨h.1, h.2, h.3⟩, hr⟩

theorem rfc_symbols (pad : Bool) : (rfc pad).fwd.Symbols := by
  have h : ∀ v : Value, ((rfc pad).fwd.get v).all isSymbol = true := by revert pad; decide +kernel
  intro v b hb
  simpa [hb] using h v

theorem rfc_inv (pad : Bool) : (rfc pad).Inv := by
  refine ⟨by revert pad; decide, Memory.wf_nil, fun c hc => ?_, Nat.zero_le _, Nat.zero_le _, rfc_symbols pad,
    fun _ => rfc_slotOk pad, ?_, ?_, fun h => ?_⟩
  · cases hc
  · exact ⟨fun _ h => (by cases h), fun _ => rfl⟩
  · exact ⟨fun h => (by cases h), fun h => (by cases h)⟩
  · cases h

/-- A command due and an operation to come change nothing the invariant speaks of, outside FAULT. -/
theorem due_inv {s : State} (w : Word) (o : HostOp) (hp : s.phase = .frozen) (h : s.Inv) :
    (due w (op o s)).Inv :=
  ⟨h.1, h.2, h.3, h.4, h.5, h.6, fun hf => ⟨(h.7 hf).1, (h.7 hf).2, (h.7 hf).3⟩, h.8, h.9,
    fun hf => Phase.noConfusion (hp.symm.trans hf)⟩

/-- H1 and H2 of R159 hold of RFC (T1). -/
theorem rfc_roundTrips (pad : Bool) : (rfc pad).CanonicalDecodes ∧ (rfc pad).PadNotCanonical := by
  have h : ∀ v : Value, ((rfc pad).fwd.get v).all
      (fun b => b != 0x3D && (rfc pad).rev.lookup b == some v) = true := by revert pad; decide +kernel
  refine ⟨fun v b hb => ?_, fun v hv => ?_⟩
  · have := h v
    simp only [hb, Option.all_some, Bool.and_eq_true, beq_iff_eq] at this
    exact Option.bind_eq_some_iff.mp this.2
  · have := h v
    simp [hv] at this

theorem witness_DecodeInvertsEncode : (Instr.declareAliases 31).wellFormed = true := rfl

/-- Opcodes 0x0, 0xB and 0xF; reserved bits at the lowest and highest place of each format; legal words. -/
theorem witness_DecodingIsTotalInOrder :
    (0x00000000#32).toNat % 16 = 0 ∧ 0xB ≤ (0x0000000B#32).toNat % 16 ∧ 0xB ≤ (0xFFFFFFFF#32).toNat % 16 ∧
    ((0x00000023#32).toNat % 16 = 3 ∧ (0x00000023#32).toNat / 2 ^ 5 ≠ 0) ∧
    ((0x80000003#32).toNat % 16 = 3 ∧ (0x80000003#32).toNat / 2 ^ 5 ≠ 0) ∧
    ((0x00000205#32).toNat % 16 = 5 ∧ (0x00000205#32).toNat / 2 ^ 9 ≠ 0) ∧
    ((0x00000011#32).toNat % 16 = 1 ∧ (0x00000011#32).toNat / 2 ^ 4 ≠ 0) ∧
    ((0x0000000A#32).toNat % 16 = 0xA ∧ (0x0000000A#32).toNat / 2 ^ 4 = 0) ∧
    ((0x00000013#32).toNat % 16 = 3 ∧ (0x00000013#32).toNat / 2 ^ 5 = 0) ∧
    ((0x000001F5#32).toNat % 16 = 5 ∧ (0x000001F5#32).toNat / 2 ^ 9 = 0) := by decide

theorem witness_IllegalWordRaisesErrIllegal :
    ((due 0x23 blank).engine = some ⟨0x23, 0⟩ ∧ decode 0x23 = .error .reservedBits ∧
      (due 0x23 blank).phase = .building) ∧
    ((due 0x0B (rfc true)).engine = some ⟨0x0B, 0⟩ ∧ decode 0x0B = .error .reservedOpcode ∧
      (due 0x0B (rfc true)).phase = .frozen) := by decide

theorem witness_StepRunsDecodedCommand :
    (due 0x13 blank).engine = some ⟨0x13, 0⟩ ∧ decode 0x13 = .ok (.setPadding true) ∧
    decodeTableWord 32 0x13 = some (.setPadding true) := by decide

theorem witness_CommandIssueAndCompletion :
    (blank.engine = none ∧ (op (.write 0 .word 1) blank).hostOps = [.write 0x000000 .word 1] ∧
      blank.phase ≠ .fault ∧ broken.engine = none ∧ broken.phase = .fault) ∧
    (∃ t, step (due 1 blank) = .next t ∧ decode 1 = .ok .new) ∧
    (∃ t, step (due 0 blank) = .next t ∧ decode 0 = .error .reservedOpcode ∧ (due 0 blank).phase ≠ .fault) :=
  ⟨by decide, ⟨_, rfl, by decide⟩, ⟨_, rfl, by decide⟩⟩

theorem witness_NothingVisibleBeforeCompletion :
    (∃ t, step { op (.read 0x000004 .word) blank with engine := some ⟨1, 1⟩ } = .next t) ∧
    (∀ rest, (op (.read 0x000004 .word) blank).hostOps ≠ .reset :: rest) :=
  ⟨⟨_, rfl⟩, fun _ h => by cases h⟩

theorem witness_WaitReachesCompletion :
    (due 1 (op .waitIdle blank)).engine = some ⟨1, 0⟩ ∧ (due 1 (op .waitIdle blank)).hostOps = [.waitIdle] ∧
    (({ op .waitIdle blank with engine := some ⟨1, 2⟩ } : State).engine = some ⟨1, 2⟩ ∧
      ({ op .waitIdle blank with engine := some ⟨1, 2⟩ } : State).hostOps = [.waitIdle]) ∧
    (op .waitIdle blank).engine = none ∧ (op .waitIdle blank).hostOps = [.waitIdle] := by decide

/-- A read with BUSY = 0, one with BUSY = 1, and a byte of a window. -/
theorem witness_ReadsHaveNoSideEffect :
    ((op (.read 0x000004 .word) blank).HostMoves ∧ blank.memRead 0x000004 .word = some 0) ∧
    (({ blank with engine := some ⟨1, 1⟩ } : State).HostMoves ∧
      ({ blank with engine := some ⟨1, 1⟩ } : State).memRead 0x000004 .word = some 1) ∧
    (load [0xAB] blank).memRead 0x100000 .byte = some 0xAB := by
  refine ⟨⟨fun w h => (by cases h), by decide⟩, ⟨fun w h => ?_, by decide⟩, by decide⟩
  simp at h

theorem witness_NewStartsFreshBuilder : blank.phase ≠ .fault ∧ (rfc true).phase ≠ .fault := by decide

/-- IN_LEN = 0, IN_MAX and IN_MAX + 1. -/
theorem witness_SetNameStoresLabel :
    (rfc true).phase = .frozen ∧
    (blank.phase = .building ∧ blank.params.inMax < ({ blank with inLen := 65 } : State).inLen.toNat) ∧
    ({ blank with inLen := 64 } : State).inLen.toNat ≤ blank.params.inMax ∧
    blank.inLen.toNat ≤ blank.params.inMax := by decide

theorem witness_SetPaddingWritesPadAndRev : (rfc true).phase = .frozen ∧ blank.phase = .building := by decide

/-- The operand RFC; its last Symbol, whose value is 31; and '=', which it does not hold. -/
theorem witness_DeclareMappingFirstWinsLastWins :
    (load rfcRow blank).phase = .building ∧ (load rfcRow blank).inLen = 32 ∧
    32 ≤ (load rfcRow blank).params.inMax ∧
    cid ((load rfcRow blank).inByte 31) = some 7 ∧
    (∀ u : Value, (31 : Value).toNat < u.toNat → cid ((load rfcRow blank).inByte u.toNat) ≠ some 7) ∧
    (∀ u : Value, cid ((load rfcRow blank).inByte u.toNat) ≠ some 13) := by decide +kernel

/-- "O~o": a Symbol, a byte that is none, and a code-identity the operand does not hold. -/
theorem witness_DeclareAliasesOverwritesRev :
    (rfc true).phase = .frozen ∧
    (blank.phase = .building ∧ blank.params.inMax < ({ blank with inLen := 65 } : State).inLen.toNat) ∧
    (load [0x4F, 0x7E, 0x6F] blank).inLen.toNat ≤ blank.params.inMax ∧
    cid ((load [0x4F, 0x7E, 0x6F] blank).inByte 2) = some 63 ∧
    (∀ k, k < 3 → cid ((load [0x4F, 0x7E, 0x6F] blank).inByte k) ≠ some 13) := by decide

theorem witness_FinalizeChecksThreeInvariants :
    (rfc true).phase = .frozen ∧
    ((rfcBuilt true).phase = .building ∧ (¬ ∃ v : Value, (rfcBuilt true).fwd.get v = none) ∧
      (¬ ∃ v : Value, ∀ c : Fin 75, (rfcBuilt true).rev.get c ≠ some v) ∧
      ¬ ((rfcBuilt true).pad = true ∧ (rfcBuilt true).rev.get 13 ≠ some 0)) ∧
    (blank.phase = .building ∧ ∃ v : Value, blank.fwd.get v = none) ∧
    (∃ v : Value, ∀ c : Fin 75, blank.rev.get c ≠ some v) ∧
    (({ blank with pad := true } : State).pad = true ∧
      ({ blank with pad := true } : State).rev.get 13 ≠ some 0) := by
  refine ⟨by decide, ⟨rfl, ?_, ?_, ?_⟩, ⟨rfl, 0, by decide⟩, ⟨0, by decide⟩, by decide⟩
  · rintro ⟨v, hv⟩
    obtain ⟨b, hb⟩ := (rfc_slotOk true).fwdTotal v
    rw [rfc_tables true |>.1, hv] at hb
    cases hb
  · rintro ⟨v, hv⟩
    obtain ⟨c, hc⟩ := (rfc_slotOk true).revOnto v
    exact hv c hc
  · rintro ⟨hp, hv⟩
    exact hv ((rfc_slotOk true).padZero hp)

/-- RFC without padding, and RFC with padding enabled before. -/
theorem witness_DistinctMappingFinalizes :
    (load rfcRow blank).phase = .building ∧ (∀ v, (load rfcRow blank).fwd.get v = none) ∧
    (load rfcRow blank).inLen = 32 ∧ 32 ≤ (load rfcRow blank).params.inMax ∧
    (∀ i, i < 32 → isSymbol ((load rfcRow blank).inByte i) = true) ∧
    (∀ i, i < 32 → ∀ j, j < 32 → (load rfcRow blank).inByte i = (load rfcRow blank).inByte j → i = j) ∧
    (padRev true).get 13 = some 0 ∧
    (∀ i, i < 32 → (load rfcRow blank).inByte i = 0x3D → i = 0) := by decide +kernel

theorem witness_GroupsAreTheBitsOfTheChunk :
    ([] : List Byte).length ≤ 5 ∧ ([1, 2, 3, 4, 5] : List Byte).length ≤ 5 := by decide

/-- Three bytes of RFC/P (chunk 0, genuine group 4, filler 5), no bytes, IN_MAX bytes, and one more. -/
theorem witness_EncodeWritesSymbols :
    blank.phase = .building ∧ (rfc true).phase = .frozen ∧ (rfc true).SlotOk ∧ (rfc true).params.Valid ∧
    (load [0x66, 0x6F, 0x6F] (rfc true)).SlotOk ∧
    (rfc true).params.inMax < ({ rfc true with inLen := 65 } : State).inLen.toNat ∧
    ({ rfc true with inLen := 64 } : State).inLen.toNat ≤ (rfc true).params.inMax ∧
    (rfc true).inLen.toNat ≤ (rfc true).params.inMax ∧
    (load [0x66, 0x6F, 0x6F] (rfc true)).inLen.toNat ≤ (rfc true).params.inMax ∧
    0 < (3 + 4) / 5 ∧ 4 < (min 5 (3 - 5 * 0) * 8 + 4) / 5 ∧ (rfc true).pad = true ∧
    (min 5 (3 - 5 * 0) * 8 + 4) / 5 ≤ 5 :=
  ⟨rfl, rfl, rfc_slotOk true, by decide, (load_alphabet _ (rfc_slotOk true) (rfc_roundTrips true)).1, by decide,
    by decide, by decide, by decide, by decide, by decide, rfl, by decide⟩

/-- "foo" with and without padding, and no data. -/
theorem witness_EncodedLength :
    encodeText (rfc true).fwd true [0x66, 0x6F, 0x6F] =
      some [0x4D, 0x5A, 0x58, 0x57, 0x36, 0x3D, 0x3D, 0x3D] ∧
    encodeText (rfc false).fwd false [0x66, 0x6F, 0x6F] = some [0x4D, 0x5A, 0x58, 0x57, 0x36] ∧
    encodeText (rfc true).fwd true [] = some [] := by decide +kernel

theorem witness_EncodeIsRepeatable :
    (rfc true).params.Valid ∧ (rfc true).phase = .frozen ∧ ∃ t, exec .encode (rfc true) = .next t :=
  ⟨by decide, rfl, _, rfl⟩

/-- "M~" has a byte out of range; "MY======" has the values 12, 24, 0, ... and 2 symbols. -/
theorem witness_DecodeUnpacksValues :
    blank.phase = .building ∧ (rfc true).phase = .frozen ∧ (rfc true).params.Valid ∧
    (rfc true).params.inMax < ({ rfc true with inLen := 65 } : State).inLen.toNat ∧
    (cid ((load [0x4D, 0x7E] (rfc true)).inByte 1) = none ∧
      (load [0x4D, 0x7E] (rfc true)).inLen.toNat ≤ (rfc true).params.inMax) ∧
    (let s := load [0x4D, 0x59, 0x3D, 0x3D, 0x3D, 0x3D, 0x3D, 0x3D] (rfc true)
     s.inLen.toNat = 8 ∧ s.rev.lookup (s.inByte 0) = some 12 ∧ s.rev.lookup (s.inByte 1) = some 24 ∧
     (∀ i, i < 8 → 2 ≤ i → s.rev.lookup (s.inByte i) = some 0 ∧ s.inByte i = 0x3D)) := by
  decide +kernel

theorem witness_DecodeUnpacksValues_count :
    UnpaddedCount (load [0x4D, 0x59, 0x3D, 0x3D, 0x3D, 0x3D, 0x3D, 0x3D] (rfc true)).inByte 8 2 := by
  refine ⟨by decide, by decide, ?_, .inl (by decide)⟩
  have h : ∀ i, i < 8 → 2 ≤ i →
      (load [0x4D, 0x59, 0x3D, 0x3D, 0x3D, 0x3D, 0x3D, 0x3D] (rfc true)).inByte i = 0x3D := by decide +kernel
  exact fun i h2 h8 => h i h8 h2

/-- '0' and 'z', the ends of the range of Symbols. -/
theorem witness_DecodeRejectsBadBytes :
    Rev.Accepts (Rev.put (Vector.replicate 75 none) 0 5) 0x30 ∧
    Rev.Accepts (Rev.put (Vector.replicate 75 none) 74 31) 0x7A :=
  ⟨⟨0, 5, by decide, by decide⟩, ⟨74, 31, by decide, by decide⟩⟩

/-- A byte out of range, and '1', which RFC does not map. -/
theorem witness_DecodeRejectsAndLeavesSlot :
    (rfc true).params.Valid ∧ (∃ t, exec .decode (rfc true) = .next t) ∧ (rfc true).phase = .frozen ∧
    (load [0x80] (rfc true)).inLen.toNat ≤ (rfc true).params.inMax ∧
    ¬ (0x30 ≤ ((load [0x80] (rfc true)).inByte 0).toNat ∧ ((load [0x80] (rfc true)).inByte 0).toNat ≤ 0x7A) ∧
    ((load [0x31] (rfc true)).inByte 0).toNat = 0x30 + (1 : Fin 75).val ∧ (rfc true).rev.get 1 = none :=
  ⟨by decide, ⟨_, rfl⟩, rfl, by decide +kernel⟩

/-- "MY======" and the empty text. -/
theorem witness_DecodedLengthBound :
    decodeText (rfc true).rev [0x4D, 0x59, 0x3D, 0x3D, 0x3D, 0x3D, 0x3D, 0x3D] = some [0x66] ∧
    decodeText (rfc true).rev [] = some [] := by decide +kernel

/-- 'O' and 'o', aliases of one value (E5). -/
theorem witness_AliasEquivalence :
    let r := (Rev.put (Vector.replicate 75 none) 31 0).put 63 0
    cid 0x4F = some 31 ∧ cid 0x6F = some 63 ∧ r.get 31 = some 0 ∧ r.get 63 = some 0 ∧
    (0x4F : Byte) ≠ 0x3D ∧ (0x6F : Byte) ≠ 0x3D ∧
    List.Forall₂ (fun a b : Byte => a = b ∨ (a = 0x4F ∧ b = 0x6F)) [0x4F, 0x4F] [0x6F, 0x4F] := by
  refine ⟨by decide, by decide, by decide, by decide, by decide, by decide, ?_⟩
  exact .cons (.inr ⟨rfl, rfl⟩) (.cons (.inl rfl) .nil)

theorem witness_RoundTrip : (rfc true).SlotOk ∧ (rfc true).CanonicalDecodes ∧ (rfc true).PadNotCanonical :=
  ⟨rfc_slotOk true, rfc_roundTrips true⟩

/-- "foo" becomes "MZXW6===", which is copied to IN. -/
theorem witness_RoundTripOnTheBlock :
    let s := load [0x66, 0x6F, 0x6F] (rfc true)
    let u := load [0x4D, 0x5A, 0x58, 0x57, 0x36, 0x3D, 0x3D, 0x3D] (rfc true)
    (s.SlotOk ∧ s.CanonicalDecodes ∧ s.PadNotCanonical) ∧ s.params.Valid ∧ s.phase = .frozen ∧ s.inLen.toNat ≤ s.params.inMax ∧ u.phase = .frozen ∧
    u.params = s.params ∧ u.rev = s.rev ∧ u.inLen.toNat ≤ u.params.inMax ∧
    Goes (exec .encode s) (fun t => u.inLen == t.outLen &&
      (List.range t.outLen.toNat).all fun i => u.inByte i == t.outByte i) = true :=
  ⟨load_alphabet _ (rfc_slotOk true) (rfc_roundTrips true), by decide +kernel⟩

/-- A name of IN_MAX bytes, and no name. -/
theorem witness_GetNameReturnsName :
    blank.phase = .building ∧ (rfc true).phase = .frozen ∧ (rfc true).params.Valid ∧
    (rfc true).name.length ≤ (rfc true).params.inMax ∧
    ({ rfc true with name := List.replicate 64 0x61, nameSet := true } : State).name.length ≤
      (rfc true).params.inMax := by decide

theorem witness_GetPaddingReturnsFlag :
    blank.phase = .building ∧ (rfc false).phase = .frozen ∧ (rfc false).params.Valid := by decide

theorem witness_WrongPhaseRaisesErrPhase :
    blank.phase ≠ .fault ∧ Instr.allowedIn .encode blank.phase = false ∧
    (rfc true).phase ≠ .fault ∧ Instr.allowedIn .finalize (rfc true).phase = false ∧
    Instr.allowedIn .new (rfc true).phase = true ∧ ∃ t, exec .new (rfc true) = .next t :=
  ⟨by decide, by decide, by decide, by decide, by decide, _, rfl⟩

theorem witness_LengthRules :
    (blank.phase = .building ∧ blank.params.inMax < ({ blank with inLen := 65 } : State).inLen.toNat) ∧
    ((rfc true).phase = .frozen ∧ (rfc true).params.inMax < ({ rfc true with inLen := 65 } : State).inLen.toNat) ∧
    ({ blank with inLen := 31 } : State).inLen ≠ 32 ∧ ({ blank with inLen := 33 } : State).inLen ≠ 32 := by
  decide

theorem witness_InLenHoldsAnyValue :
    (blank.engine = none ∧
      (op (.write 0x000008 .word 0xFFFFFFFF) blank).hostOps = [.write 0x000008 .word 0xFFFFFFFF]) ∧
    (∃ t, exec .setName { blank with inLen := 0xFFFFFFFF } = .next t) ∧
    (({ blank with inLen := 65 } : State).params.inMax < ({ blank with inLen := 65 } : State).inLen.toNat ∧
      Instr.allowedIn .setName blank.phase = true) := ⟨by decide, ⟨_, rfl⟩, by decide⟩

theorem witness_ErrorsWriteNothingElse :
    blank.phase ≠ .fault ∧ Goes (exec .encode blank) (fun t => decide (t.err ≠ .ok ∧ t.err ≠ .config)) = true ∧
    Goes (exec .finalize blank) (fun t => decide (t.err = .config)) = true ∧
    decode 0x23 = .error .reservedBits := by decide

theorem witness_ErrorPriority :
    ((due 1 broken).engine = some ⟨1, 0⟩ ∧ broken.phase = .fault) ∧
    (blank.phase ≠ .fault ∧ decode 0x23 = .error .reservedBits) ∧
    (decode 7 = .ok .encode ∧ Instr.allowedIn .encode blank.phase = false) ∧
    (decode 4 = .ok .declareMapping ∧ Instr.allowedIn .declareMapping blank.phase = true ∧ blank.inLen ≠ 32) ∧
    (decode 8 = .ok .decode ∧ Instr.allowedIn .decode (rfc true).phase = true ∧
      (rfc true).params.inMax < ({ rfc true with inLen := 65 } : State).inLen.toNat) := by decide

theorem witness_FaultIgnoresEveryCommand :
    broken.phase = .fault ∧ broken.params.Valid ∧ broken.engine = none ∧
    (∃ t, step (op (.write 0x100000 .byte 7) broken) = .next t) ∧
    (∀ rest, (op (.write 0x100000 .byte 7) broken).hostOps ≠ .reset :: rest) :=
  ⟨rfl, by decide, rfl, ⟨_, rfl⟩, fun _ h => by cases h⟩

theorem witness_OnlyResetLeavesFault :
    broken.phase = .fault ∧ Goes (step (op .reset broken)) (fun t => decide (t.phase ≠ .fault)) = true := by decide

theorem witness_FrozenSlotIsImmutable :
    (rfc true).Inv ∧ (rfc true).phase = .frozen ∧ (∃ t, step (rfc true) = .next t) ∧
    ((rfc true).HostMoves → ∀ rest, (rfc true).hostOps ≠ .reset :: rest) ∧
    (∀ w, (rfc true).engine = some ⟨w, 0⟩ → decode w ≠ .ok .new) :=
  ⟨rfc_inv true, rfl, ⟨_, rfl⟩, fun _ _ h => (by cases h), fun _ h => by cases h⟩

/-- GET_PADDING completes while a reset stands next in the host's list. -/
theorem witness_FrozenSlotIsImmutable_resetNext :
    (due 0x0A (op .reset (rfc true))).Inv ∧ (due 0x0A (op .reset (rfc true))).phase = .frozen ∧
    (∃ t, step (due 0x0A (op .reset (rfc true))) = .next t) ∧ ¬ (due 0x0A (op .reset (rfc true))).HostMoves ∧
    (∀ w, (due 0x0A (op .reset (rfc true))).engine = some ⟨w, 0⟩ → decode w ≠ .ok .new) :=
  ⟨due_inv _ _ rfl (rfc_inv true), rfl, ⟨_, rfl⟩, fun h => h 0x0A rfl, fun _ h => by cases h; decide⟩

theorem witness_EveryCommandCompletes : (rfc true).Inv ∧ broken.Inv := ⟨rfc_inv true, broken_inv⟩

/-- One operand, two blocks whose OUT differs. -/
theorem witness_ResultDependsOnlyOnOperand :
    let s1 := load [0x66] (rfc true)
    let s2 : State := { s1 with mem := s1.mem.writeBytes 0x200000 [0x11], outLen := 1 }
    s1.phase ≠ .fault ∧ s1.inLen = s2.inLen ∧ (∀ k, k < s1.inLen.toNat → s1.inByte k = s2.inByte k) ∧
    Goes (exec .encode s1) (fun t => t.err == .ok) = true ∧ Goes (exec .encode s2) (fun t => t.err == .ok) = true := by
  decide +kernel

theorem witness_StatusLayout :
    (op (.write 0x000004 .word 0xFFFFFFFF) blank).HostMoves ∧
    (op (.write 0x000004 .word 0xFFFFFFFF) blank).hostOps = [.write 0x000004 .word 0xFFFFFFFF] :=
  ⟨fun _ h => (by cases h), rfl⟩

theorem witness_CapacitiesAreHardwired :
    blank.params.Valid ∧ (op (.write 0x000014 .word 0) blank).HostMoves ∧
    (op (.write 0x000014 .word 0) blank).hostOps = [.write 0x000014 .word 0] ∧
    ∃ t, step (op (.write 0x000014 .word 0) blank) = .next t :=
  ⟨by decide, fun _ h => (by cases h), rfl, _, rfl⟩

theorem witness_RegisterWrites :
    (op (.write 0x00000C .word 1) blank).HostMoves ∧ blank.engine = none ∧ blank.phase ≠ .fault ∧
    (op (.write 0x00000C .word 1) blank).hostOps = [.write 0x00000C .word 1] ∧
    (op (.write 0x000008 .word 1) blank).hostOps = [.write 0x000008 .word 1] ∧
    (op (.write 0x000000 .word 1) blank).hostOps = [.write 0x000000 .word 1] :=
  ⟨fun _ h => (by cases h), by decide⟩

/-- The first and the last word below IN, the bytes after IN and OUT, and the last address. -/
theorem witness_ReservedRangesReadZero :
    ∀ x ∈ ([(0x000018, .word), (0x0FFFFC, .word), (0x100040, .byte), (0x200080, .word), (0xFFFFFF, .byte)] :
      List (Addr × Width)),
      x.1.toNat % x.2.bytes = 0 ∧ 0x000018 ≤ x.1.toNat ∧
      ¬ (0x100000 ≤ x.1.toNat ∧ x.1.toNat < 0x100000 + blank.params.inMax) ∧
      ¬ (0x200000 ≤ x.1.toNat ∧ x.1.toNat < 0x200000 + blank.params.outMax) := by decide

/-- The first and the last word of IN, and its last byte. -/
theorem witness_InWindowAccesses :
    blank.params.Valid ∧ blank.engine = none ∧
    (0 % Width.word.bytes = 0 ∧ 0 + Width.word.bytes ≤ blank.params.inMax ∧ (0x100000 : Addr).toNat = 0x100000 + 0) ∧
    (60 % Width.word.bytes = 0 ∧ 60 + Width.word.bytes ≤ blank.params.inMax ∧
      (0x10003C : Addr).toNat = 0x100000 + 60) ∧
    (63 % Width.byte.bytes = 0 ∧ 63 + Width.byte.bytes ≤ blank.params.inMax ∧
      (0x10003F : Addr).toNat = 0x100000 + 63) := by decide

/-- The first half word of OUT, and its last byte. -/
theorem witness_OutWindowAccesses :
    blank.params.Valid ∧ blank.HostMoves ∧
    (0 % Width.half.bytes = 0 ∧ 0 + Width.half.bytes ≤ blank.params.outMax ∧
      (0x200000 : Addr).toNat = 0x200000 + 0) ∧
    (127 % Width.byte.bytes = 0 ∧ 127 + Width.byte.bytes ≤ blank.params.outMax ∧
      (0x20007F : Addr).toNat = 0x200000 + 127) ∧
    ∃ t, exec .new blank = .next t ∧ t.outLen.toNat ≤ 0 :=
  ⟨by decide, fun _ h => (by cases h), by decide, by decide, _, rfl, by decide⟩

/-- A misaligned word, a byte of CMD, and an aligned word past the end of an IN of 63 and an OUT of 126
bytes. -/
theorem witness_ForbiddenAccessIsRefused :
    blank.HostMoves ∧ blank.params.Valid ∧ Params.Valid ⟨63, 126, []⟩ ∧
    (0x100002 : Addr).toNat % Width.word.bytes ≠ 0 ∧ ((0x000000 : Addr).toNat < 0x18 ∧ Width.byte ≠ .word) ∧
    (0x10003C : Addr).toNat < 0x100000 + 63 ∧ 0x100000 + 63 < (0x10003C : Addr).toNat + Width.word.bytes ∧
    (0x20007C : Addr).toNat < 0x200000 + 126 ∧ 0x200000 + 126 < (0x20007C : Addr).toNat + Width.word.bytes :=
  ⟨fun _ h => (by cases h), by decide, by decide, by decide, by decide, by decide, by decide, by decide, by decide⟩

theorem witness_WritesWhileBusyAreRefused :
    (({ op (.write 0x000000 .word 1) blank with engine := some ⟨7, 1⟩ } : State).engine = some ⟨7, 0 + 1⟩ ∧
      ({ op (.write 0x000000 .word 1) blank with engine := some ⟨7, 1⟩ } : State).hostOps =
        [.write 0x000000 .word 1]) ∧
    (({ op (.write 0x000008 .word 32) blank with engine := some ⟨7, 2⟩ } : State).engine = some ⟨7, 1 + 1⟩ ∧
      ({ op (.write 0x000008 .word 32) blank with engine := some ⟨7, 2⟩ } : State).hostOps =
        [.write 0x000008 .word 32]) ∧
    (({ op (.write 0x10003F .byte 1) blank with engine := some ⟨7, 1⟩ } : State).engine = some ⟨7, 0 + 1⟩ ∧
      ({ op (.write 0x10003F .byte 1) blank with engine := some ⟨7, 1⟩ } : State).hostOps =
        [.write 0x10003F .byte 1] ∧
      (0x10003F : Addr).toNat % Width.byte.bytes = 0 ∧ 0x100000 ≤ (0x10003F : Addr).toNat ∧
      (0x10003F : Addr).toNat + Width.byte.bytes ≤ 0x100000 + blank.params.inMax) := by decide

theorem witness_ResetRestoresEveryState :
    (op .reset broken).HostMoves ∧ (op .reset broken).hostOps = [.reset] ∧
    ({ op .reset (rfc true) with engine := some ⟨7, 1⟩ } : State).HostMoves := by
  refine ⟨fun _ h => (by cases h), rfl, fun _ h => ?_⟩
  simp at h

theorem witness_ResetSlotEqualsNewSlot :
    (op .reset (rfc true)).HostMoves ∧ (op .reset (rfc true)).hostOps = [.reset] ∧
    (op .reset (rfc true)).phase ≠ .fault ∧ (∃ t, step (op .reset (rfc true)) = .next t) ∧
    ∃ u, exec .new (op .reset (rfc true)) = .next u :=
  ⟨fun _ h => (by cases h), rfl, by decide, ⟨_, rfl⟩, _, rfl⟩

/-- The smallest and the largest parameters of R5. -/
theorem witness_InvAtReset : Params.Valid ⟨1, 8, []⟩ ∧ Params.Valid ⟨655360, 2 ^ 20, []⟩ := by decide

theorem witness_StepKeepsInv : (rfc true).Inv ∧ ∃ t, step (rfc true) = .next t := ⟨rfc_inv true, _, rfl⟩

theorem witness_StepNeverFaults : (rfc true).Inv ∧ broken.Inv := ⟨rfc_inv true, broken_inv⟩

theorem witness_LoadInStoresOperand :
    blank.params.Valid ∧ blank.engine = none ∧ rfcRow.length ≤ blank.params.inMax ∧
    ({ blank with hostOps := (HostLine.loadIn rfcRow).expand } : State).hostOps =
      (HostLine.loadIn rfcRow).expand ++ [] := by decide

end Sys2Proof.Tests
end

/-! PROOFS. The scope of a command (00_scope.md): its result depends only on its operand and the slot (R7), and no
step of a reachable block faults (R5, R130). -/

namespace Sys2Proof.Machine

/-! ## Two runs of one command -/

/-- The two alphabet slots agree: FWD, REV, PAD, NAME, NAME_SET, PHASE and CFG_CAUSE (R22 to
R27). -/
structure SameSlot (s1 s2 : State) : Prop where
  fwd : s1.fwd = s2.fwd
  rev : s1.rev = s2.rev
  pad : s1.pad = s2.pad
  name : s1.name = s2.name
  nameSet : s1.nameSet = s2.nameSet
  phase : s1.phase = s2.phase
  cfgCause : s1.cfgCause = s2.cfgCause

/-- The two states agree in all a command may depend on: parameters, slot and data operand (R7, R38). The
command is not one that FAULT ignores. -/
structure SameInput (s1 s2 : State) : Prop extends SameSlot s1 s2 where
  params : s1.params = s2.params
  inLen : s1.inLen = s2.inLen
  operand : s1.operand = s2.operand
  notFault : s1.phase ≠ .fault

/-- Two answers that both go on agree in the slot and ERR and, when `out` holds and ERR is OK, in the result
`OUT[0..OUT_LEN)`. -/
def SameOutcome (out : Bool) (a1 a2 : Answer) : Prop :=
  ∀ t1 t2, a1 = .next t1 → a2 = .next t2 →
    t1.err = t2.err ∧ SameSlot t1 t2 ∧
      (out = true → t1.err = .ok →
        t1.outLen = t2.outLen ∧ ∀ k, k < t1.outLen.toNat → t1.outByte k = t2.outByte k)

/-- The operand is `IN[0..IN_LEN)`: states that agree there have the same one (R73). -/
theorem operand_congr {s1 s2 : State} (hlen : s1.inLen = s2.inLen)
    (hin : ∀ k, k < s1.inLen.toNat → s1.inByte k = s2.inByte k) : s1.operand = s2.operand := by
  refine List.ext_getElem (by simp [hlen]) fun k h1 h2 => ?_
  simpa using hin k (by simpa using h1)

/-- An error writes ERR alone, so the slots still agree; it leaves no result. -/
theorem sameOutcome_raiseError {out : Bool} {e : ErrCode} {s1 s2 : State} (h : SameSlot s1 s2)
    (he : out = true → e ≠ .ok) :
    SameOutcome out (.next (raiseError e s1)) (.next (raiseError e s2)) := by
  rintro _ _ ⟨⟩ ⟨⟩
  exact ⟨rfl, { h with }, fun ho hok => absurd hok (he ho)⟩

/-- A command without a result completes with the slot it wrote. -/
theorem sameOutcome_completeOk {s1 s2 : State} (h : SameSlot s1 s2) :
    SameOutcome false (.next (completeOk s1)) (.next (completeOk s2)) := by
  rintro _ _ ⟨⟩ ⟨⟩
  exact ⟨rfl, { h with }, nofun⟩

/-- The result bytes are the ones stored, whatever OUT held before. -/
theorem sameOutcome_emitResult {s1 s2 : State} (h : SameSlot s1 s2) (out : Bool) (d : List Byte) :
    SameOutcome out (emitResult d s1) (emitResult d s2) := by
  intro t1 t2 h1 h2
  obtain ⟨-, rfl⟩ := emitResult_next h1
  obtain ⟨-, rfl⟩ := emitResult_next h2
  refine ⟨rfl, { h with }, fun _ _ => ⟨rfl, fun k hk => ?_⟩⟩
  have hkd : k < d.length := hk.trans_le (by simpa using Nat.mod_le _ _)
  exact (outByte_storeOut (s := s1) hkd).trans (outByte_storeOut (s := s2) hkd).symm

/-- The phase check agrees in states of the same phase (R206). -/
theorem SameInput.inPhase {out : Bool} {s1 s2 : State} (h : SameInput s1 s2) (ph : Phase) {k1 k2 : Answer}
    (hk : SameOutcome out k1 k2) : SameOutcome out (inPhase ph s1 k1) (inPhase ph s2 k2) := by
  have hf : s2.phase ≠ .fault := h.phase ▸ h.notFault
  by_cases hp : s1.phase = ph
  · rwa [inPhase_eq hp (hp ▸ h.notFault), inPhase_eq (h.phase ▸ hp) (hp ▸ h.notFault)]
  · rw [inPhase_ne hp h.notFault, inPhase_ne (h.phase ▸ hp) hf]
    exact sameOutcome_raiseError h.toSameSlot (by simp)

/-- The length rule agrees, and both commands take the same operand (R207). -/
theorem SameInput.withOperand {out : Bool} {s1 s2 : State} (h : SameInput s1 s2)
    {k1 k2 : List Byte → Answer} (hk : ∀ d, SameOutcome out (k1 d) (k2 d)) :
    SameOutcome out (withOperand s1 k1) (withOperand s2 k2) := by
  unfold Machine.withOperand
  rw [← h.inLen, ← h.params, ← h.operand]
  split
  · exact hk _
  · exact sameOutcome_raiseError h.toSameSlot (by simp)

/-- The length rule of DECLARE_MAPPING agrees too (R104, R207). -/
theorem SameInput.withMappingOperand {out : Bool} {s1 s2 : State} (h : SameInput s1 s2)
    {k1 k2 : List Byte → Answer} (hk : ∀ d, SameOutcome out (k1 d) (k2 d)) :
    SameOutcome out (withMappingOperand s1 k1) (withMappingOperand s2 k2) := by
  unfold Machine.withMappingOperand
  rw [← h.inLen]
  split
  · exact h.withOperand hk
  · exact sameOutcome_raiseError h.toSameSlot (by simp)

/-- The name GET_NAME shows is a part of the slot or a parameter (R180). -/
theorem SameInput.shownName {s1 s2 : State} (h : SameInput s1 s2) : s1.shownName = s2.shownName := by
  simp only [State.shownName, h.nameSet, h.name, h.params]

/-- FINALIZE's checks read the tables and PAD alone (R106). -/
theorem SameSlot.finalizeCause {s1 s2 : State} (h : SameSlot s1 s2) :
    s1.finalizeCause = s2.finalizeCause := by
  simp only [State.finalizeCause, h.fwd, h.rev, h.pad]

theorem SameInput.execNew {s1 s2 : State} (h : SameInput s1 s2) :
    SameOutcome false (execNew s1) (execNew s2) := by
  have hf : s2.phase ≠ .fault := h.phase ▸ h.notFault
  rw [Machine.execNew, Machine.execNew, unlessFault_ne h.notFault, unlessFault_ne hf]
  exact sameOutcome_completeOk ⟨rfl, rfl, rfl, h.name, rfl, rfl, rfl⟩

theorem SameInput.execSetName {s1 s2 : State} (h : SameInput s1 s2) :
    SameOutcome false (execSetName s1) (execSetName s2) :=
  h.inPhase _ <| h.withOperand fun _ => sameOutcome_completeOk { h with name := rfl, nameSet := rfl }

theorem SameInput.execSetPadding {s1 s2 : State} (h : SameInput s1 s2) (en : Bool) :
    SameOutcome false (execSetPadding en s1) (execSetPadding en s2) :=
  h.inPhase _ <| sameOutcome_completeOk { h with pad := rfl, rev := by simp only [h.rev] }

theorem SameInput.execDeclareMapping {s1 s2 : State} (h : SameInput s1 s2) :
    SameOutcome false (execDeclareMapping s1) (execDeclareMapping s2) :=
  h.inPhase _ <| h.withMappingOperand fun _ =>
    sameOutcome_completeOk { h with fwd := by simp only [h.fwd, h.rev], rev := by simp only [h.fwd, h.rev] }

theorem SameInput.execDeclareAliases {s1 s2 : State} (h : SameInput s1 s2) (val : Value) :
    SameOutcome false (execDeclareAliases val s1) (execDeclareAliases val s2) :=
  h.inPhase _ <| h.withOperand fun _ => sameOutcome_completeOk { h with rev := by simp only [h.rev] }

theorem SameInput.execFinalize {s1 s2 : State} (h : SameInput s1 s2) :
    SameOutcome false (execFinalize s1) (execFinalize s2) := by
  refine h.inPhase _ ?_
  rw [h.finalizeCause]
  split
  · exact sameOutcome_completeOk { h with phase := rfl }
  · exact sameOutcome_raiseError { h with cfgCause := rfl, phase := rfl } nofun

theorem SameInput.execEncode {s1 s2 : State} (h : SameInput s1 s2) :
    SameOutcome true (execEncode s1) (execEncode s2) := by
  refine h.inPhase _ <| h.withOperand fun data => ?_
  rw [h.fwd, h.pad]
  split
  · exact sameOutcome_emitResult h.toSameSlot _ _
  · exact fun _ _ h1 => nomatch h1

theorem SameInput.execDecode {s1 s2 : State} (h : SameInput s1 s2) :
    SameOutcome true (execDecode s1) (execDecode s2) := by
  refine h.inPhase _ <| h.withOperand fun text => ?_
  rw [h.rev]
  split
  · exact sameOutcome_emitResult h.toSameSlot _ _
  · exact sameOutcome_raiseError h.toSameSlot (by simp)

theorem SameInput.execGetName {s1 s2 : State} (h : SameInput s1 s2) :
    SameOutcome true (execGetName s1) (execGetName s2) :=
  h.inPhase _ <| h.shownName ▸ sameOutcome_emitResult h.toSameSlot _ _

theorem SameInput.execGetPadding {s1 s2 : State} (h : SameInput s1 s2) :
    SameOutcome true (execGetPadding s1) (execGetPadding s2) :=
  h.inPhase _ <| h.pad ▸ sameOutcome_emitResult h.toSameSlot _ _

/-- A command depends on nothing but its parameters, the slot and its operand (R7). -/
theorem SameInput.exec {s1 s2 : State} (h : SameInput s1 s2) (i : Instr) :
    SameOutcome i.hasOutput (exec i s1) (exec i s2) := by
  cases i with
  | new => exact h.execNew
  | setName => exact h.execSetName
  | setPadding en => exact h.execSetPadding en
  | declareMapping => exact h.execDeclareMapping
  | declareAliases val => exact h.execDeclareAliases val
  | finalize => exact h.execFinalize
  | encode => exact h.execEncode
  | decode => exact h.execDecode
  | getName => exact h.execGetName
  | getPadding => exact h.execGetPadding

/-- Settles O41: the phase check, the length rules and the two ends of a command all agree on states with the
same parameters, slot and operand. -/
theorem resultDependsOnlyOnOperand : Obligations.ResultDependsOnlyOnOperand := by
  intro i s1 s2 t1 t2 params fwd rev pad name nameSet phase cfgCause inLen hin notFault h1 h2
  have h : SameInput s1 s2 :=
    { fwd, rev, pad, name, nameSet, phase, cfgCause, params, inLen, notFault,
      operand := operand_congr inLen hin }
  obtain ⟨herr, hslot, hout⟩ := h.exec i t1 t2 h1 h2
  exact ⟨herr, hslot.fwd, hslot.rev, hslot.pad, hslot.name, hslot.nameSet, hslot.phase, hslot.cfgCause, hout⟩

/-! ## The lengths of the codec's results -/

/-- ENCODE's lookup never meets INVALID in a total FWD table (R36, R130). -/
theorem encodeChunk_ne_none {f : Fwd} (hf : ∀ v, ∃ b, f.get v = some b) (pad : Bool) (c : List Byte) :
    encodeChunk f pad c ≠ none := by
  intro hnone
  simp only [encodeChunk, Option.map_eq_none_iff, mapM_eq_none] at hnone
  obtain ⟨j, -, hj⟩ := hnone
  obtain ⟨b, hb⟩ := hf (groupOf (chunkWord c) j)
  simp [hb] at hj

theorem encodeText_ne_none {f : Fwd} (hf : ∀ v, ∃ b, f.get v = some b) (pad : Bool) (data : List Byte) :
    encodeText f pad data ≠ none := by
  intro hnone
  simp only [encodeText, Option.map_eq_none_iff, mapM_eq_none] at hnone
  obtain ⟨c, -, hc⟩ := hnone
  exact encodeChunk_ne_none hf pad c hc

/-- A chunk becomes its genuine symbols and, with padding, fillers up to 8 (R133, R134). -/
theorem encodeChunk_length {f : Fwd} {pad : Bool} {c t : List Byte} (h : encodeChunk f pad c = some t) :
    t.length = genuine c.length + if pad then 8 - genuine c.length else 0 := by
  simp only [encodeChunk, Option.map_eq_some_iff] at h
  obtain ⟨syms, hsyms, rfl⟩ := h
  have hlen : syms.length = genuine c.length := by simpa using (mapM_getElem hsyms).1
  cases pad <;> simp [hlen]

/-- Every chunk has at most `k` elements. -/
theorem length_le_of_mem_chunksOf {α : Type} {k : Nat} {l c : List α} (h : c ∈ chunksOf k l) :
    c.length ≤ k := by
  obtain ⟨i, -, rfl⟩ := List.mem_map.mp h
  exact List.length_take_le _ _

/-- Every result of a successful lookup is the result of an element. -/
theorem exists_of_mem_mapM {α β : Type} {f : α → Option β} {l : List α} {r : List β} {y : β}
    (h : l.mapM f = some r) (hy : y ∈ r) : ∃ x ∈ l, f x = some y := by
  obtain ⟨hlen, hget⟩ := mapM_getElem h
  obtain ⟨i, hi, rfl⟩ := List.getElem_of_mem hy
  exact ⟨l[i], List.getElem_mem _, hget i (hlen ▸ hi) hi⟩

/-- The text ENCODE produces is at most `8 * ceil(n / 5)` bytes long (R5, R131). -/
theorem encodeText_length_le {f : Fwd} {pad : Bool} {data t : List Byte}
    (h : encodeText f pad data = some t) : t.length ≤ maxEncodedLength data.length := by
  simp only [encodeText, Option.map_eq_some_iff] at h
  obtain ⟨blocks, hblocks, rfl⟩ := h
  have hcount : blocks.length = (data.length + 4) / 5 := by simpa using (mapM_getElem hblocks).1
  have hblock : ∀ n ∈ blocks.map List.length, n ≤ 8 := by
    intro n hn
    obtain ⟨b, hb, rfl⟩ := List.mem_map.mp hn
    obtain ⟨c, hc, hcb⟩ := exists_of_mem_mapM hblocks hb
    have hc5 := length_le_of_mem_chunksOf hc
    have hgenuine : genuine c.length ≤ 8 := by unfold genuine; omega
    rw [encodeChunk_length hcb]
    split <;> omega
  have hsum := List.sum_le_card_nsmul _ 8 hblock
  rw [List.length_flatten, maxEncodedLength]
  simp only [List.length_map, hcount, smul_eq_mul] at hsum
  omega

theorem dropPad_length_le (k : Nat) (l : List Byte) : (dropPad k l).length ≤ l.length := by
  induction k generalizing l with
  | zero => simp [dropPad]
  | succ k ih =>
    cases l with
    | nil => simp [dropPad]
    | cons b l =>
      rw [dropPad]
      split
      · exact (ih l).trans (by simp)
      · exact le_rfl

theorem unpadded_le (text : List Byte) : unpadded text ≤ text.length := by
  simpa [unpadded] using dropPad_length_le 6 text.reverse

/-- DECODE produces at most as many bytes as its text has (R152). -/
theorem decodeText_length_le {r : Rev} {text d : List Byte} (h : decodeText r text = some d) :
    d.length ≤ text.length := by
  simp only [decodeText, Option.map_eq_some_iff] at h
  obtain ⟨values, -, rfl⟩ := h
  have hu := unpadded_le text
  refine (List.length_take_le _ _).trans ?_
  unfold decodedLength
  omega

/-! ## No command faults -/

/-- On parameters that meet R5, `n` bytes within IN_MAX are within OUT_MAX too, and so is their encoding. -/
theorem maxEncodedLength_le_outMax {p : Params} (hp : p.Valid) {n : Nat} (hn : n ≤ p.inMax) :
    maxEncodedLength n ≤ p.outMax := by
  obtain ⟨-, -, -, hfit, -⟩ := hp
  unfold maxEncodedLength at *
  omega

theorem le_maxEncodedLength (n : Nat) : n ≤ maxEncodedLength n := by
  unfold maxEncodedLength
  omega

/-- A name is at most IN_MAX bytes long, and the placeholder fits OUT (R5, R25). -/
theorem State.Inv.shownName_fits {s : State} (hs : s.Inv) : s.shownName.length ≤ s.params.outMax := by
  obtain ⟨-, -, -, -, hplaceholder⟩ := hs.params
  unfold State.shownName
  split
  · exact (hs.nameFits.trans (le_maxEncodedLength _)).trans (maxEncodedLength_le_outMax hs.params le_rfl)
  · exact hplaceholder

/-- A checked command answers a next state if it does so in its phase. -/
theorem inPhase_completes {ph : Phase} {s : State} {k : Answer} (hk : s.phase = ph → ∃ t, k = .next t) :
    ∃ t, inPhase ph s k = .next t := by
  rcases inPhase_cases ph s k with ⟨-, e⟩ | ⟨-, -, e⟩ | ⟨-, hp, e⟩
  · exact ⟨_, e⟩
  · exact ⟨_, e⟩
  · rw [e]
    exact hk hp

/-- A data-operand command answers a next state if it does so on an operand that fits IN. -/
theorem withOperand_completes {s : State} {k : List Byte → Answer}
    (hk : s.inLen.toNat ≤ s.params.inMax → ∃ t, k s.operand = .next t) :
    ∃ t, withOperand s k = .next t := by
  rcases withOperand_cases s k with ⟨-, e⟩ | ⟨hl, e⟩
  · exact ⟨_, e⟩
  · rw [e]
    exact hk hl

theorem withMappingOperand_completes {s : State} {k : List Byte → Answer}
    (hk : ∃ t, k s.operand = .next t) : ∃ t, withMappingOperand s k = .next t := by
  rcases withMappingOperand_cases s k with ⟨-, e⟩ | ⟨-, -, e⟩
  · exact ⟨_, e⟩
  · rw [e]
    exact hk

theorem execFinalize_completes (s : State) : ∃ t, execFinalize s = .next t :=
  inPhase_completes fun _ => by split <;> exact ⟨_, rfl⟩

theorem execEncode_completes {s : State} (hs : s.Inv) : ∃ t, execEncode s = .next t := by
  refine inPhase_completes fun hp => withOperand_completes fun hl => ?_
  split
  · next t ht =>
    have hlen : t.length ≤ maxEncodedLength s.inLen.toNat := by simpa using encodeText_length_le ht
    exact ⟨_, emitResult_fits (hlen.trans (maxEncodedLength_le_outMax hs.params hl))⟩
  · next hnone => exact absurd hnone (encodeText_ne_none (hs.frozen hp).fwdTotal _ _)

theorem execDecode_completes {s : State} (hs : s.Inv) : ∃ t, execDecode s = .next t := by
  refine inPhase_completes fun _ => withOperand_completes fun hl => ?_
  split
  · next d hd =>
    have hlen : d.length ≤ s.inLen.toNat := by simpa using decodeText_length_le hd
    exact ⟨_, emitResult_fits <|
      (hlen.trans (le_maxEncodedLength _)).trans (maxEncodedLength_le_outMax hs.params hl)⟩
  · exact ⟨_, rfl⟩

theorem execGetName_completes {s : State} (hs : s.Inv) : ∃ t, execGetName s = .next t :=
  inPhase_completes fun _ => ⟨_, emitResult_fits hs.shownName_fits⟩

theorem execGetPadding_completes {s : State} (hs : s.Inv) : ∃ t, execGetPadding s = .next t := by
  obtain ⟨hpos, -⟩ := hs.params
  have hone : 1 ≤ s.params.outMax :=
    (le_maxEncodedLength 1).trans (maxEncodedLength_le_outMax hs.params hpos)
  exact inPhase_completes fun _ => ⟨_, emitResult_fits hone⟩

/-- From every state of the invariant every command answers a next state. -/
theorem exec_completes {s : State} (hs : s.Inv) (i : Instr) : ∃ t, exec i s = .next t := by
  cases i with
  | new => rcases execNew_cases s with ⟨-, e⟩ | ⟨-, e⟩ <;> exact ⟨_, e⟩
  | setName => exact inPhase_completes fun _ => withOperand_completes fun _ => ⟨_, rfl⟩
  | setPadding en => exact inPhase_completes fun _ => ⟨_, rfl⟩
  | declareMapping => exact inPhase_completes fun _ => withMappingOperand_completes ⟨_, rfl⟩
  | declareAliases val => exact inPhase_completes fun _ => withOperand_completes fun _ => ⟨_, rfl⟩
  | finalize => exact execFinalize_completes s
  | encode => exact execEncode_completes hs
  | decode => exact execDecode_completes hs
  | getName => exact execGetName_completes hs
  | getPadding => exact execGetPadding_completes hs

/-- An illegal word completes too, with ERR_ILLEGAL (R205). -/
theorem runWord_completes {s : State} (hs : s.Inv) (w : Word) : ∃ t, runWord w s = .next t := by
  cases hw : decode w with
  | ok i => exact runWord_ok hw s ▸ exec_completes hs i
  | error e =>
    rw [runWord_error hw, rejectIllegal, unlessFault]
    split <;> exact ⟨_, rfl⟩

theorem hostWrite_ne_fault (r : Region) (n : Width) (v : Word) (s : State) (f : Fault) :
    hostWrite r n v s ≠ .fault f := by
  have hbusy : ∀ t : State, unlessBusy s t ≠ .fault f := by
    intro t
    unfold unlessBusy
    split <;> simp
  cases r with
  | cmd | inLen | inWindow _ => exact hbusy _
  | status | outLen | capInMax | capOutMax | outWindow _ | reserved => exact nofun

/-- The host's turn goes on or is refused; only a command can fault. -/
theorem hostTurn_ne_fault (s : State) (f : Fault) : hostTurn s ≠ .fault f := by
  unfold hostTurn
  split
  · exact nofun
  · split <;> exact nofun
  · split
    · exact hostWrite_ne_fault _ _ _ _ _
    · exact nofun
  · exact nofun
  · exact nofun

/-- Settles O55: the host's turn never faults, and from a state of the invariant every word the engine runs
completes. -/
theorem stepNeverFaults : Obligations.StepNeverFaults := by
  intro s f hs
  rcases hostMoves_or_due s with hm | ⟨w, hw⟩
  · rw [step_hostMoves hm]
    exact hostTurn_ne_fault _ f
  · obtain ⟨t, ht⟩ := runWord_completes hs w
    rw [step_due hw, ht]
    exact nofun

end Sys2Proof.Machine

/-! PROOFS. The state of the block (10_state.md): what a step can change of it. -/

namespace Sys2Proof.Machine

/-! ## What a step can do -/

/-- Everything a step that goes on can do: the host takes its turn, or the word that is due runs. -/
theorem step_next {s t : State} (h : step s = .next t) :
    (s.HostMoves ∧ hostTurn s.ticked = .next t) ∨
    (∃ w, s.engine = some ⟨w, 0⟩ ∧ runWord w s = .next t) := by
  rcases hostMoves_or_due s with hm | ⟨w, hw⟩
  · exact .inl ⟨hm, step_hostMoves hm ▸ h⟩
  · exact .inr ⟨w, hw, step_due hw ▸ h⟩

/-- Everything a word that goes on can do: it runs as its command, or it is illegal (R205) and ignored in FAULT
(R204). -/
theorem runWord_next {w : Word} {s t : State} (h : runWord w s = .next t) :
    (∃ i, decode w = .ok i ∧ exec i s = .next t) ∨
    (s.phase = .fault ∧ t = ignoreCommand s) ∨
    (s.phase ≠ .fault ∧ t = raiseError .illegal s) := by
  cases hw : decode w with
  | ok i => exact .inl ⟨i, rfl, runWord_ok hw s ▸ h⟩
  | error e =>
    rw [runWord_error hw, rejectIllegal] at h
    by_cases hp : s.phase = .fault
    · rw [unlessFault_fault hp] at h
      exact .inr (.inl ⟨hp, (Host.Outcome.next.inj h).symm⟩)
    · rw [unlessFault_ne hp] at h
      exact .inr (.inr ⟨hp, (Host.Outcome.next.inj h).symm⟩)

/-- No command changes the parameters, IN_LEN or the model's own fields. -/
theorem exec_frame {i : Instr} {s t : State} (h : exec i s = .next t) :
    t = { t with
      params := s.params, inLen := s.inLen, hostOps := s.hostOps, reads := s.reads, epoch := s.epoch,
      issues := s.issues } := by
  rcases exec_next h with ⟨-, rfl⟩ | ⟨-, e, -, -, rfl⟩ | ⟨-, -, rfl⟩ | ⟨-, -, -, rfl⟩ | ⟨-, p, r, rfl, -⟩ |
    ⟨-, -, -, -, rfl⟩ | ⟨-, -, -, rfl⟩ | ⟨-, -, -, rfl⟩ | ⟨-, -, d, -, rfl⟩ <;> rfl

/-- The issue of a command changes BUSY and the count of issues alone (R200). -/
theorem issueCommand_frame (w : Word) (s : State) :
    ∃ e n, issueCommand w s = { s with engine := e, issues := n } := by
  unfold issueCommand
  split
  · exact ⟨s.engine, s.issues, rfl⟩
  · exact ⟨_, _, rfl⟩

/-- An allowed host write changes at most BUSY, IN_LEN and the written bytes (R55 to R58). -/
theorem hostWrite_frame {r : Region} {n : Width} {v : Word} {s t : State} (h : hostWrite r n v s = .next t) :
    t = { s with engine := t.engine, mem := t.mem, inLen := t.inLen, issues := t.issues } := by
  rcases hostWrite_next h with ⟨-, -, rfl⟩ | ⟨-, -, rfl⟩ | ⟨i, -, -, rfl⟩ | rfl
  · obtain ⟨e, k, hi⟩ := issueCommand_frame v s
    rw [hi]
  · rfl
  · rfl
  · rfl

/-- A host's turn that is no reset changes none of the parameters, the slot, ERR and OUT_LEN. -/
theorem hostTurn_frame {s t : State} (h : hostTurn s = .next t) (hr : ∀ rest, s.hostOps ≠ .reset :: rest) :
    t = { s with
      engine := t.engine, mem := t.mem, inLen := t.inLen, hostOps := t.hostOps, reads := t.reads,
      issues := t.issues } := by
  rcases hostTurn_next h with ⟨-, rfl⟩ | ⟨a, n, rest, v, -, -, rfl⟩ | ⟨a, n, v, rest, r, -, -, hw⟩ |
    ⟨rest, -, rfl⟩ | ⟨rest, hrest, -⟩
  · rfl
  · rfl
  · have ht := hostWrite_frame hw
    rw [ht]
  · split <;> rfl
  · exact absurd hrest (hr rest)

/-- While BUSY = 1 an allowed host write changes nothing (R55, R58, R233). -/
theorem hostWrite_busy {r : Region} {n : Width} {v : Word} {s t : State} (hb : s.busy = true)
    (h : hostWrite r n v s = .next t) : t = s := by
  have hidle : s.busy ≠ false := by simp [hb]
  rcases hostWrite_next h with ⟨-, hb', -⟩ | ⟨-, hb', -⟩ | ⟨-, -, hb', -⟩ | rfl
  · exact absurd hb' hidle
  · exact absurd hb' hidle
  · exact absurd hb' hidle
  · rfl

/-- While BUSY = 1 a host's turn that is no reset changes the host's own lists alone (R28). -/
theorem hostTurn_busy {s t : State} (hb : s.busy = true) (h : hostTurn s = .next t)
    (hr : ∀ rest, s.hostOps ≠ .reset :: rest) :
    ∃ ops reads, t = { s with hostOps := ops, reads := reads } := by
  rcases hostTurn_next h with ⟨-, rfl⟩ | ⟨a, n, rest, v, -, -, rfl⟩ | ⟨a, n, v, rest, r, -, -, hw⟩ |
    ⟨rest, -, rfl⟩ | ⟨rest, hrest, -⟩
  · exact ⟨_, _, rfl⟩
  · exact ⟨_, _, rfl⟩
  · exact ⟨rest, s.reads, hostWrite_busy (s := { s with hostOps := rest }) hb hw⟩
  · rw [if_pos hb]
    exact ⟨_, _, rfl⟩
  · exact absurd hrest (hr rest)

/-- An aligned 32-bit read of the register block answers the register (R51). -/
theorem memRead_register (s : State) {a : Addr} (h : a.toNat % 4 = 0) (h' : a.toNat < 0x18) :
    s.memRead a .word = some (s.readRegion (registerAt a.toNat) .word) := by
  rw [State.memRead, regionOf_register h h']
  rfl

/-! ## STATUS -/

/-- The fields of STATUS, bit by bit from bit 0 up (R32). -/
theorem statusWord_getLsbD (s : State) (i : Nat) :
    s.statusWord.getLsbD i =
      if i < 1 then (BitVec.ofBool s.busy).getLsbD i
      else if i - 1 < 2 then s.phase.bits.getLsbD (i - 1)
      else if i - 3 < 1 then (BitVec.ofBool s.pad).getLsbD (i - 3)
      else if i - 4 < 4 then s.err.bits.getLsbD (i - 4)
      else if i - 8 < 3 then s.cfgCause.bits.getLsbD (i - 8)
      else if i - 11 < 1 then (BitVec.ofBool s.nameSet).getLsbD (i - 11)
      else false := by
  simp only [State.statusWord, BitVec.getLsbD_append]
  simp [Nat.sub_sub]

theorem statusWord_busy (s : State) : s.statusWord.getLsbD 0 = s.busy := by
  rw [statusWord_getLsbD]
  simp

theorem statusWord_phase (s : State) : s.statusWord.extractLsb' 1 2 = s.phase.bits := by
  refine BitVec.eq_of_getLsbD_eq fun i hi => ?_
  rw [BitVec.getLsbD_extractLsb', statusWord_getLsbD, if_neg (by omega), if_pos (by omega)]
  simp [hi]

theorem statusWord_pad (s : State) : s.statusWord.getLsbD 3 = s.pad := by
  rw [statusWord_getLsbD]
  simp

theorem statusWord_err (s : State) : s.statusWord.extractLsb' 4 4 = s.err.bits := by
  refine BitVec.eq_of_getLsbD_eq fun i hi => ?_
  rw [BitVec.getLsbD_extractLsb', statusWord_getLsbD, if_neg (by omega), if_neg (by omega), if_neg (by omega),
    if_pos (by omega)]
  simp [hi]

theorem statusWord_cfgCause (s : State) {i : Nat} (hi : i < 3) :
    s.statusWord.getLsbD (8 + i) = s.cfgCause.bits.getLsbD i := by
  rw [statusWord_getLsbD, if_neg (by omega), if_neg (by omega), if_neg (by omega), if_neg (by omega),
    if_pos (by omega), Nat.add_sub_cancel_left]

theorem statusWord_nameSet (s : State) : s.statusWord.getLsbD 11 = s.nameSet := by
  rw [statusWord_getLsbD]
  simp

theorem statusWord_high (s : State) : s.statusWord.extractLsb' 12 20 = 0 := by
  refine BitVec.eq_of_getLsbD_eq fun i hi => ?_
  rw [BitVec.getLsbD_extractLsb', statusWord_getLsbD, if_neg (by omega), if_neg (by omega), if_neg (by omega),
    if_neg (by omega), if_neg (by omega), if_neg (by omega)]
  simp

theorem CfgCause.bits_getLsbD (c : CfgCause) :
    c.bits.getLsbD 0 = c.fwdIncomplete ∧ c.bits.getLsbD 1 = c.revNotSurjective ∧
      c.bits.getLsbD 2 = c.padNotZero := by
  simp only [CfgCause.bits, BitVec.getLsbD_append]
  simp

theorem State.reset_statusWord : State.reset.statusWord = 0 := by decide

/-- Settles O42: each field stands at its bits of STATUS, and a host write to STATUS falls on a register that ignores
it. -/
theorem statusLayout : Obligations.StatusLayout := by
  refine ⟨fun s => ?_, State.reset_statusWord, fun s v rest hm ho => ⟨?_, ticked_statusWord s⟩⟩
  · obtain ⟨hfwd, hrev, hpad⟩ := s.cfgCause.bits_getLsbD
    refine ⟨memRead_register s (by decide) (by decide), statusWord_busy s, ?_, statusWord_pad s, ?_,
      (statusWord_cfgCause s (i := 0) (by decide)).trans hfwd,
      (statusWord_cfgCause s (i := 1) (by decide)).trans hrev,
      (statusWord_cfgCause s (i := 2) (by decide)).trans hpad, statusWord_nameSet s, statusWord_high s⟩
    · rw [statusWord_phase]
      cases s.phase <;> rfl
    · rw [statusWord_err]
      cases s.err <;> rfl
  · exact step_write hm ho (regionOf_register (by decide) (by decide))

/-! ## The capacities -/

/-- CAP_IN_MAX and CAP_OUT_MAX read the parameters, which R5 bounds by `2^20` (R35). -/
theorem memRead_capacities {s : State} (hp : s.params.Valid) :
    ∃ x y, s.memRead 0x000010 .word = some x ∧ s.memRead 0x000014 .word = some y ∧
      x.toNat = s.params.inMax ∧ y.toNat = s.params.outMax := by
  obtain ⟨-, hin, hout, -, -⟩ := hp
  refine ⟨_, _, memRead_register s (by decide) (by decide), memRead_register s (by decide) (by decide), ?_, ?_⟩
  · exact Nat.mod_eq_of_lt (by omega)
  · exact Nat.mod_eq_of_lt (by omega)

theorem exec_params {i : Instr} {s t : State} (h : exec i s = .next t) : t.params = s.params :=
  (congrArg State.params (exec_frame h) :)

theorem runWord_params {w : Word} {s t : State} (h : runWord w s = .next t) : t.params = s.params := by
  rcases runWord_next h with ⟨i, -, he⟩ | ⟨-, rfl⟩ | ⟨-, rfl⟩
  · exact exec_params he
  · rfl
  · rfl

/-- The reset keeps the parameters too (log 10). -/
theorem hostTurn_params {s t : State} (h : hostTurn s = .next t) : t.params = s.params := by
  by_cases hr : ∃ rest, s.hostOps = .reset :: rest
  · obtain ⟨rest, hr⟩ := hr
    rw [hostTurn, hr] at h
    cases h
    rfl
  · exact (congrArg State.params (hostTurn_frame h fun rest e => hr ⟨rest, e⟩) :)

/-- Settles O43: both registers read parameters that no step changes, and a host write to them is ignored. -/
theorem capacitiesAreHardwired : Obligations.CapacitiesAreHardwired := by
  refine fun s => ⟨memRead_capacities, fun v rest a ha hm ho => ?_, fun t h => ?_⟩
  · rcases ha with rfl | rfl
    · exact step_write hm ho (regionOf_register (by decide) (by decide))
    · exact step_write hm ho (regionOf_register (by decide) (by decide))
  · rcases step_next h with ⟨-, ht⟩ | ⟨w, -, hw⟩
    · exact (hostTurn_params ht).trans (ticked_params s)
    · exact runWord_params hw

/-! ## Reset -/

/-- Settles O50: the values stand in State.reset, and its parameters meet R5. -/
theorem resetValues : Obligations.ResetValues :=
  ⟨Fwd.get_clear, Rev.get_clear, rfl, rfl, rfl, rfl, rfl, rfl, rfl, rfl, State.reset_statusWord,
    memRead_capacities Config.params_valid⟩

/-- A state with the values of R39 meets the invariant, whatever the fields hold that R39 does not speak of. -/
theorem inv_of_resetValues {s : State} (hparams : s.params.Valid) (hmem : s.mem = []) (hname : s.name = [])
    (hout : s.outLen = 0) (hfwd : s.fwd = Vector.replicate 32 none) (hphase : s.phase = .building)
    (hcause : s.cfgCause = CfgCause.none) (herr : s.err = .ok) : s.Inv where
  params := hparams
  memWf := hmem ▸ Memory.wf_nil
  memInWindows := by simp [hmem]
  nameFits := by simp [hname]
  outLenFits := by simp [hout]
  symbols v b h := by simp [hfwd] at h
  frozen h := by simp [hphase] at h
  cause := by simp [hcause, hphase]
  errConfig := by simp [herr, hphase]
  idleInFault h := by simp [hphase] at h

/-- Settles O53: the reset state has the values of R39, and the free parameters of Config meet R5. -/
theorem invAtReset : Obligations.InvAtReset :=
  ⟨inv_of_resetValues Config.params_valid rfl rfl rfl rfl rfl rfl rfl,
    fun _ hp => inv_of_resetValues hp rfl rfl rfl rfl rfl rfl rfl⟩

/-! ## The invariant: the host's turn -/

/-- One host turn less to wait: the invariant does not speak of the wait. -/
theorem State.Inv.ticked {s : State} (hs : s.Inv) : s.ticked.Inv :=
  { hs with
    frozen := fun h => { hs.frozen h with }
    idleInFault := fun h => by simp [hs.idleInFault h] }

/-- The host's own lists are no part of the invariant (logs 5 and 6). -/
theorem State.Inv.hostLists {s : State} (hs : s.Inv) (ops : List HostOp) (reads : List ReadResult) :
    State.Inv { s with hostOps := ops, reads := reads } :=
  { hs with frozen := fun h => { hs.frozen h with } }

/-- IN_LEN takes any value (R33). -/
theorem State.Inv.inLen {s : State} (hs : s.Inv) (v : Word) : State.Inv { s with inLen := v } :=
  { hs with frozen := fun h => { hs.frozen h with } }

/-- No command is issued in FAULT (R200). -/
theorem State.Inv.issueCommand {s : State} (hs : s.Inv) (w : Word) : (issueCommand w s).Inv := by
  unfold Machine.issueCommand
  split
  · exact hs
  · next hp => exact { hs with frozen := fun h => { hs.frozen h with }, idleInFault := fun h => absurd h hp }

/-- Bytes written inside the windows keep the written bytes canonical and inside the windows. -/
theorem State.Inv.writeBytes {s : State} (hs : s.Inv) {a : Nat} {bs : List Byte}
    (ha : ∀ b, a ≤ b → b < a + bs.length → Params.InWindows s.params b) :
    State.Inv { s with mem := s.mem.writeBytes a bs } :=
  { hs with
    memWf := Memory.writeBytes_wf _ _ hs.memWf
    memInWindows := fun c hc => (Memory.mem_writeBytes hc).elim (fun ⟨h1, h2⟩ => ha c.1 h1 h2) (hs.memInWindows c)
    frozen := fun h => { hs.frozen h with } }

/-- An allowed host write keeps the invariant: a byte it writes lies in the IN window (R52, R57). -/
theorem State.Inv.hostWrite {s t : State} (hs : s.Inv) {a : Nat} {r : Region} {n : Width} {v : Word}
    (hr : regionOf s.params a n = some r) (h : hostWrite r n v s = .next t) : t.Inv := by
  rcases hostWrite_next h with ⟨-, -, rfl⟩ | ⟨-, -, rfl⟩ | ⟨i, rfl, -, rfl⟩ | rfl
  · exact hs.issueCommand v
  · exact hs.inLen v
  · obtain ⟨-, hi⟩ := regionOf_inWindow hr
    refine hs.writeBytes fun b h1 h2 => .inl ?_
    rw [leBytes_length] at h2
    omega
  · exact hs

theorem State.Inv.hostTurn {s t : State} (hs : s.Inv) (h : hostTurn s = .next t) : t.Inv := by
  rcases hostTurn_next h with ⟨-, rfl⟩ | ⟨a, n, rest, v, -, -, rfl⟩ | ⟨a, n, v, rest, r, -, hr, hw⟩ |
    ⟨rest, -, rfl⟩ | ⟨rest, -, rfl⟩
  · exact hs
  · exact hs.hostLists _ _
  · exact (hs.hostLists rest s.reads).hostWrite hr hw
  · split
    · exact hs.hostLists s.hostOps _
    · exact hs.hostLists _ _
  · exact inv_of_resetValues hs.params rfl rfl rfl rfl rfl rfl rfl

/-! ## The invariant: commands -/

/-- A command that completes in a phase other than FAULT leaves ERR at OK (R201). -/
theorem State.Inv.completeOk {s : State} (hs : s.Inv) (hp : s.phase ≠ .fault) : (completeOk s).Inv :=
  { hs with
    frozen := fun h => { hs.frozen h with }
    errConfig := by simp [hp]
    idleInFault := fun _ => rfl }

/-- Every error but ERR_CONFIG leaves the phase, which is not FAULT, as it is (R203). -/
theorem State.Inv.raiseError {s : State} (hs : s.Inv) (hp : s.phase ≠ .fault) {e : ErrCode} (he : e ≠ .config) :
    (raiseError e s).Inv :=
  { hs with
    frozen := fun h => { hs.frozen h with }
    errConfig := by simp [hp, he]
    idleInFault := fun _ => rfl }

theorem State.Inv.ignoreCommand {s : State} (hs : s.Inv) : (ignoreCommand s).Inv :=
  { hs with
    frozen := fun h => { hs.frozen h with }
    idleInFault := fun _ => rfl }

/-- Outside FAULT, ERR is not ERR_CONFIG. -/
theorem State.Inv.err_ne_config {s : State} (hs : s.Inv) (hp : s.phase ≠ .fault) : s.err ≠ .config :=
  fun h => hp (hs.errConfig.mp h)

/-- The empty slot of NEW (R101). -/
theorem State.Inv.freshSlot {s : State} (hs : s.Inv) (hp : s.phase ≠ .fault) : s.freshSlot.Inv :=
  { hs with
    symbols := fun v b h => by simp at h
    frozen := fun h => by simp at h
    cause := by simp
    errConfig := by simp [hs.err_ne_config hp]
    idleInFault := fun h => by simp at h }

theorem State.Inv.setName {s : State} (hs : s.Inv) {label : List Byte} (hl : label.length ≤ s.params.inMax) :
    State.Inv { s with name := label, nameSet := true } :=
  { hs with
    nameFits := hl
    frozen := fun h => { hs.frozen h with } }

/-- In BUILDING the tables and PAD are free, but FWD holds Symbols (R22). -/
theorem State.Inv.setTables {s : State} (hs : s.Inv) (hp : s.phase = .building) {f : Fwd} (hf : f.Symbols)
    (r : Rev) (pad : Bool) : State.Inv { s with fwd := f, rev := r, pad := pad } :=
  { hs with
    symbols := hf
    frozen := fun h => by simp [hp] at h }

/-- FINALIZE on a slot that meets R36 (R106). -/
theorem State.Inv.freeze {s : State} (hs : s.Inv) (hp : s.phase = .building) (ok : s.SlotOk) :
    State.Inv { s with phase := .frozen } :=
  have hnf : s.phase ≠ .fault := by simp [hp]
  { hs with
    frozen := fun _ => { ok with }
    cause := by simp [hs.cause.mpr hnf]
    errConfig := by simp [hs.err_ne_config hnf]
    idleInFault := fun h => by simp at h }

/-- FINALIZE on a slot that breaks R36 records a cause and enters FAULT with ERR_CONFIG (R106, R209). -/
theorem State.Inv.failFinalize {s : State} (hs : s.Inv) (bad : ¬ s.SlotOk) :
    (Machine.raiseError .config { s with cfgCause := s.finalizeCause, phase := .fault }).Inv :=
  have hcause : s.finalizeCause ≠ CfgCause.none := fun h => bad (s.finalizeCause_none_iff.mp h)
  { hs with
    frozen := fun h => by simp at h
    cause := by simp [hcause]
    errConfig := by simp
    idleInFault := fun _ => rfl }

/-- A result that fits OUT is written inside the OUT window (R58, R59). -/
theorem State.Inv.storeOut {s : State} (hs : s.Inv) {d : List Byte} (hd : d.length ≤ s.params.outMax) :
    (s.storeOut d).Inv :=
  have hw := hs.writeBytes (a := outBase) (bs := d) fun b h1 h2 => .inr ⟨h1, by omega⟩
  { hw with
    outLenFits := by simpa using (Nat.mod_le _ _).trans hd
    frozen := fun h => { hw.frozen h with } }

theorem Fwd.Symbols.put {f : Fwd} (hf : f.Symbols) (v : Value) {b : Byte} (hb : isSymbol b = true) :
    (f.put v b).Symbols := by
  intro w c hc
  by_cases hw : w = v
  · subst hw
    rw [Fwd.get_put_same] at hc
    exact Option.some.inj hc ▸ hb
  · exact hf w c (Fwd.get_put_other f b hw ▸ hc)

/-- DECLARE_MAPPING skips a byte that is no Symbol (R104). -/
theorem Fwd.Symbols.declarePosition {t : Fwd × Rev} (ht : t.1.Symbols) (i : Value) (b : Byte) :
    (declarePosition i b t).1.Symbols := by
  unfold Machine.declarePosition
  split
  · next hb =>
    dsimp only
    split
    · exact ht.put i hb
    · exact ht
  · exact ht

theorem Fwd.Symbols.declareFrom {t : Fwd × Rev} (ht : t.1.Symbols) (i : Nat) (bs : List Byte) :
    (declareFrom i bs t).1.Symbols := by
  induction bs generalizing i t with
  | nil => exact ht
  | cons b bs ih => exact ih (ht.declarePosition _ b) (i + 1)

/-- Every command keeps the invariant, whichever way it ends. -/
theorem State.Inv.exec {s t : State} (hs : s.Inv) {i : Instr} (h : exec i s = .next t) : t.Inv := by
  rcases exec_next h with ⟨-, rfl⟩ | ⟨hp, e, -, he, rfl⟩ | ⟨hp, -, rfl⟩ | ⟨hp, -, hl, rfl⟩ | ⟨hp, p, r, rfl, -⟩ |
    ⟨hp, -, -, -, rfl⟩ | ⟨hp, -, ok, rfl⟩ | ⟨-, -, bad, rfl⟩ | ⟨hp, -, d, hd, rfl⟩
  · exact hs.ignoreCommand
  · exact hs.raiseError hp he
  · exact (hs.freshSlot hp).completeOk (by simp)
  · exact (hs.setName (by simpa using hl)).completeOk (by simp [hp])
  · exact (hs.setTables hp hs.symbols r p).completeOk (by simp [hp])
  · exact (hs.setTables hp (hs.symbols.declareFrom (t := (s.fwd, s.rev)) 0 _) _ s.pad).completeOk (by simp [hp])
  · exact (hs.freeze hp ok).completeOk (by simp)
  · exact hs.failFinalize bad
  · exact (hs.storeOut hd).completeOk (by simp [hp])

/-- An illegal word raises ERR_ILLEGAL alone, or is ignored in FAULT (R205). -/
theorem State.Inv.runWord {s t : State} (hs : s.Inv) {w : Word} (h : runWord w s = .next t) : t.Inv := by
  rcases runWord_next h with ⟨i, -, hi⟩ | ⟨-, rfl⟩ | ⟨hp, rfl⟩
  · exact hs.exec hi
  · exact hs.ignoreCommand
  · exact hs.raiseError hp (by decide)

/-- Settles O54: the host's turn keeps the invariant, and so does every end of a command. -/
theorem stepKeepsInv : Obligations.StepKeepsInv := by
  intro s t hs h
  rcases step_next h with ⟨-, ht⟩ | ⟨w, -, hw⟩
  · exact hs.ticked.hostTurn ht
  · exact hs.runWord hw

/-! ## A waiting command -/

/-- A command with host turns left to wait is not due. -/
theorem hostMoves_of_waiting {s : State} {w : Word} {k : Nat} (h : s.engine = some ⟨w, k + 1⟩) : s.HostMoves := by
  intro w' h'
  simp [h] at h'

/-- Settles O7: while BUSY = 1 the host's turn changes nothing but the host's own lists. -/
theorem nothingVisibleBeforeCompletion : Obligations.NothingVisibleBeforeCompletion := by
  intro s t w k hw h hr
  rw [step_hostMoves (hostMoves_of_waiting hw)] at h
  obtain ⟨ops, reads, rfl⟩ := hostTurn_busy (by simp [State.busy, hw]) h hr
  exact ⟨by simp [hw], rfl⟩

/-- The turn of a host at WAIT: one recorded STATUS read, and WAIT stays while BUSY = 1 (R78; log 14). -/
theorem hostTurn_waitIdle {s : State} {rest : List HostOp} (ho : s.hostOps = .waitIdle :: rest) :
    hostTurn s = .next (if s.busy then s.recordRead statusAddr .word s.statusWord
      else { s.recordRead statusAddr .word s.statusWord with hostOps := rest }) := by
  rw [hostTurn, ho]

/-- What the host's record holds is no part of STATUS (R32; log 6). -/
@[simp] theorem recordRead_statusWord (s : State) (a : Addr) (n : Width) (v : Word) :
    (s.recordRead a n v).statusWord = s.statusWord := rfl

theorem step_waitIdle_waiting {s : State} {w : Word} {k : Nat} {rest : List HostOp}
    (hw : s.engine = some ⟨w, k + 1⟩) (ho : s.hostOps = .waitIdle :: rest) :
    step s = .next (s.ticked.recordRead statusAddr .word s.statusWord) := by
  have hb : s.busy = true := by simp [State.busy, hw]
  rw [step_hostMoves (hostMoves_of_waiting hw), hostTurn_waitIdle (s := s.ticked) ho, ticked_busy, if_pos hb,
    ticked_statusWord]

theorem step_waitIdle_idle {s : State} {rest : List HostOp} (he : s.engine = none)
    (ho : s.hostOps = .waitIdle :: rest) :
    step s = .next { s.recordRead statusAddr .word s.statusWord with hostOps := rest } := by
  have hb : ¬ s.busy = true := by simp [State.busy, he]
  obtain ⟨hm, ht⟩ := step_idle he
  rw [step_hostMoves hm, ht, hostTurn_waitIdle ho, if_neg hb]

/-- With `k` host turns to wait, a WAIT records `k` STATUS reads, all of the STATUS before the command, and then the
word runs. -/
theorem run_waitIdle {s : State} {w : Word} {k : Nat} {rest : List HostOp}
    (hw : s.engine = some ⟨w, k⟩) (ho : s.hostOps = .waitIdle :: rest) :
    Sys2Proof.core.run (k + 1) s = runWord w { s with
      engine := some ⟨w, 0⟩
      reads := List.replicate k ⟨statusAddr, .word, s.statusWord⟩ ++ s.reads } := by
  induction k generalizing s with
  | zero =>
    rw [run_one, step_due hw, ← hw]
    rfl
  | succ k ih =>
    have hnext := ih (s := s.ticked.recordRead statusAddr .word s.statusWord) (by simp [hw]) ho
    rw [run_succ_next _ (step_waitIdle_waiting hw ho), hnext]
    rw [recordRead_statusWord, ticked_statusWord, List.replicate_succ', List.append_assoc]
    rfl

/-- Settles O8: one STATUS read for each turn left to wait, by induction on their number. -/
theorem waitReachesCompletion : Obligations.WaitReachesCompletion :=
  ⟨fun s _ _ _ hw ho => ⟨by simp only [statusWord_busy, State.busy, hw, Option.isSome_some], run_waitIdle hw ho⟩,
    fun s _ he ho => ⟨by simp only [statusWord_busy, State.busy, he, Option.isSome_none], step_waitIdle_idle he ho⟩⟩

/-! ## IN_LEN -/

/-- A value above IN_MAX fails DECLARE_MAPPING too (log 7). -/
theorem withMappingOperand_tooLong {s : State} (h : s.params.inMax < s.inLen.toNat) (k : List Byte → Answer) :
    withMappingOperand s k = .next (raiseError .length s) := by
  unfold withMappingOperand
  split
  · exact withOperand_tooLong h k
  · rfl

/-- A data-operand command in its phase, with IN_LEN above IN_MAX (R202, R207). -/
theorem exec_tooLong {i : Instr} {s : State} (h : s.params.inMax < s.inLen.toNat)
    (hp : i.allowedIn s.phase = true)
    (hi : i = .setName ∨ i = .declareMapping ∨ (∃ v, i = .declareAliases v) ∨ i = .encode ∨ i = .decode) :
    exec i s = .next (raiseError .length s) := by
  rcases hi with rfl | rfl | ⟨v, rfl⟩ | rfl | rfl <;> replace hp := of_decide_eq_true hp
  · exact (inPhase_eq hp (by decide) _).trans (withOperand_tooLong h _)
  · exact (inPhase_eq hp (by decide) _).trans (withMappingOperand_tooLong h _)
  · exact (inPhase_eq hp (by decide) _).trans (withOperand_tooLong h _)
  · exact (inPhase_eq hp (by decide) _).trans (withOperand_tooLong h _)
  · exact (inPhase_eq hp (by decide) _).trans (withOperand_tooLong h _)

theorem exec_inLen {i : Instr} {s t : State} (h : exec i s = .next t) : t.inLen = s.inLen :=
  (congrArg State.inLen (exec_frame h) :)

/-- A write of IN_LEN with BUSY = 0 (R33). -/
theorem step_write_inLen {s : State} {v : Word} {rest : List HostOp} (he : s.engine = none)
    (ho : s.hostOps = .write 0x000008 .word v :: rest) :
    step s = .next { s with inLen := v, hostOps := rest } := by
  obtain ⟨hm, ht⟩ := step_idle he
  rw [step_write hm ho (regionOf_register (by decide) (by decide)), ht]
  exact unlessBusy_idle (s := { s with hostOps := rest }) he _

/-- Settles O34: IN_LEN is a plain register, which no command writes and the length rules compare with IN_MAX. -/
theorem inLenHoldsAnyValue : Obligations.InLenHoldsAnyValue :=
  ⟨fun _ _ _ he ho => ⟨_, step_write_inLen he ho, rfl, memRead_register _ (by decide) (by decide)⟩,
    fun _ _ _ h => exec_inLen h,
    fun _ _ h hp hi => exec_tooLong h hp hi⟩

/-! ## The slot in FROZEN -/

/-- A host's turn that is no reset leaves the slot as it is (R36). -/
theorem hostTurn_sameSlot {s t : State} (h : hostTurn s = .next t) (hr : ∀ rest, s.hostOps ≠ .reset :: rest) :
    SameSlot t s := by
  rw [hostTurn_frame h hr]
  constructor <;> rfl

/-- In FROZEN every command but NEW leaves the slot as it is (R36). -/
theorem exec_sameSlot_of_frozen {i : Instr} {s t : State} (hp : s.phase = .frozen) (hi : i ≠ .new)
    (h : exec i s = .next t) : SameSlot t s := by
  have hb : s.phase ≠ .building := by simp [hp]
  rcases exec_next h with ⟨-, rfl⟩ | ⟨-, e, -, -, rfl⟩ | ⟨-, h, -⟩ | ⟨h, -⟩ | ⟨h, -⟩ | ⟨h, -⟩ | ⟨h, -⟩ | ⟨h, -⟩ |
    ⟨-, -, d, -, rfl⟩
  · constructor <;> rfl
  · constructor <;> rfl
  · exact absurd h hi
  · exact absurd h hb
  · exact absurd h hb
  · exact absurd h hb
  · exact absurd h hb
  · exact absurd h hb
  · constructor <;> rfl

/-- In FROZEN a word that is not the one of NEW leaves the slot as it is. -/
theorem runWord_sameSlot_of_frozen {w : Word} {s t : State} (hp : s.phase = .frozen) (hw : decode w ≠ .ok .new)
    (h : runWord w s = .next t) : SameSlot t s := by
  rcases runWord_next h with ⟨i, hi, he⟩ | ⟨-, rfl⟩ | ⟨-, rfl⟩
  · exact exec_sameSlot_of_frozen hp (fun hn => hw (hn ▸ hi)) he
  · constructor <;> rfl
  · constructor <;> rfl

/-- Settles O39: neither the host's turn nor a command but NEW writes the slot in FROZEN. -/
theorem frozenSlotIsImmutable : Obligations.FrozenSlotIsImmutable := by
  intro s t hs hp h hreset hnew
  have hslot : SameSlot t s := by
    rcases step_next h with ⟨hm, ht⟩ | ⟨w, hw, ht⟩
    · have hticked := hostTurn_sameSlot ht (hreset hm)
      exact { hticked with }
    · exact runWord_sameSlot_of_frozen hp (hnew w hw) ht
  exact ⟨hs.frozen hp, hslot.phase.trans hp, hslot.fwd, hslot.rev, hslot.pad, hslot.name, hslot.nameSet⟩

end Sys2Proof.Machine

/-! PROOFS. The host's accesses (20_memory.md): where one falls, what it reads, what it writes, and which one has no
step. -/

namespace Sys2Proof.Machine

/-! ## A host's access in one step -/

/-- An access that R52 allows reads the value of its region (R51). -/
theorem memRead_of_region {s : State} {a : Addr} {n : Width} {r : Region}
    (hr : regionOf s.params a.toNat n = some r) : s.memRead a n = some (s.readRegion r n) := by
  rw [State.memRead, hr, Option.map_some]

/-- The step of a host read that R52 allows. -/
theorem step_read {s : State} {a : Addr} {n : Width} {v : Word} {rest : List HostOp} (hm : s.HostMoves)
    (ho : s.hostOps = .read a n :: rest) (hv : s.memRead a n = some v) :
    step s = .next { s.ticked.recordRead a n v with hostOps := rest } := by
  rw [step_hostMoves hm, hostTurn, ticked_hostOps, ho]
  simp only [ticked_memRead, hv]

/-- An access that R52 does not allow has no step (R53). -/
theorem step_notAllowed {s : State} {a : Addr} {n : Width} {rest : List HostOp} (hm : s.HostMoves)
    (ho : s.hostOps = .read a n :: rest ∨ ∃ v, s.hostOps = .write a n v :: rest)
    (hr : regionOf s.params a.toNat n = none) : step s = .refused .accessNotAllowed := by
  rw [step_hostMoves hm, hostTurn, ticked_hostOps]
  rcases ho with ho | ⟨v, ho⟩
  · have hread : s.memRead a n = none := by rw [State.memRead, hr, Option.map_none]
    rw [ho]
    simp only [ticked_memRead, hread]
  · rw [ho]
    simp only [ticked_params, hr]

/-- The step of a host write that R52 allows, with BUSY = 0. -/
theorem step_write_idle {s : State} {a : Addr} {n : Width} {v : Word} {rest : List HostOp} {r : Region}
    (he : s.engine = none) (ho : s.hostOps = .write a n v :: rest)
    (hr : regionOf s.params a.toNat n = some r) :
    step s = hostWrite r n v { s with hostOps := rest } := by
  obtain ⟨hm, ht⟩ := step_idle he
  rw [step_write hm ho hr, ht]

/-- The lists of the host's operations and of what it read are nothing the host can read (logs 5, 6). -/
theorem memRead_hostLists (s : State) (ops : List HostOp) (reads : List ReadResult) (a : Addr) (n : Width) :
    State.memRead { s with hostOps := ops, reads := reads } a n = s.memRead a n := rfl

/-- Settles O9: a read changes the host's own lists and, if a command waits, the turns it waits; neither is anything
the host can read. -/
theorem readsHaveNoSideEffect : Obligations.ReadsHaveNoSideEffect := by
  intro s a n rest v hm ho hv
  refine ⟨_, step_read hm ho hv, rfl, rfl, ticked_busy s, ?_, rfl⟩
  calc State.memRead { s.ticked.recordRead a n v with hostOps := rest } a n
      = s.ticked.memRead a n := memRead_hostLists s.ticked rest (⟨a, n, v⟩ :: s.reads) a n
    _ = s.memRead a n := ticked_memRead s a n
    _ = some v := hv

/-! ## What a command writes of the windows -/

/-- A command that goes on leaves the written bytes as they are, or it stores a result that fits OUT (R59). -/
theorem exec_mem {i : Instr} {s t : State} (h : exec i s = .next t) :
    t.mem = s.mem ∨ ∃ d, d.length ≤ s.params.outMax ∧ t = completeOk (s.storeOut d) := by
  rcases exec_next h with ⟨-, rfl⟩ | ⟨-, e, -, -, rfl⟩ | ⟨-, -, rfl⟩ | ⟨-, -, -, rfl⟩ | ⟨-, p, r, rfl, -⟩ |
    ⟨-, -, -, -, rfl⟩ | ⟨-, -, -, rfl⟩ | ⟨-, -, -, rfl⟩ | ⟨-, -, hd⟩
  iterate 8 exact .inl rfl
  exact .inr hd

/-- A command writes no byte outside `OUT[0..OUT_LEN)` (R58, R59). -/
theorem exec_readByte_outside {i : Instr} {s t : State} (hp : s.params.Valid) (h : exec i s = .next t) {a : Nat}
    (ha : a < outBase ∨ outBase + t.outLen.toNat ≤ a) : t.readByte a = s.readByte a := by
  rcases exec_mem h with hm | ⟨d, hd, rfl⟩
  · exact readByte_congr hm (congrArg State.epoch (exec_frame h) :) a
  · obtain ⟨-, -, hout, -, -⟩ := hp
    have hlen : (completeOk (s.storeOut d)).outLen.toNat = d.length := Nat.mod_eq_of_lt (by omega)
    rw [hlen] at ha
    exact readByte_storeOut_outside ha

/-! ## The windows -/

/-- The byte at `IN[i + k]` after the host wrote a value there (R54, R57). -/
theorem inByte_writeBytes {s : State} {i k : Nat} {n : Width} (v : Word) (hk : k < n.bytes) :
    State.inByte { s with mem := s.mem.writeBytes (inBase + i) (leBytes v n) } (i + k) =
      v.extractLsb' (8 * k) 8 := by
  have hlen : k < (leBytes v n).length := by rwa [leBytes_length]
  rw [State.inByte, State.readByte, ← Nat.add_assoc, Memory.read_writeBytes_inside _ _ _ hlen, leBytes_getElem,
    Option.getD_some]

/-- Bytes written elsewhere leave the byte at `b` as it is. -/
theorem readByte_writeBytes_outside {s : State} {a b : Nat} {bs : List Byte} (hb : b < a ∨ a + bs.length ≤ b) :
    State.readByte { s with mem := s.mem.writeBytes a bs } b = s.readByte b := by
  rw [State.readByte, State.readByte, Memory.read_writeBytes_outside _ _ hb]

/-- Settles O46: reads and writes of the IN window are little-endian, and IN lies below OUT, the only window a
command writes. -/
theorem inWindowAccesses : Obligations.InWindowAccesses := by
  intro s i n a hp hi hb ha
  have hr : regionOf s.params a.toNat n = some (.inWindow i) := ha ▸ regionOf_inside_in hi hb
  refine ⟨⟨_, memRead_of_region hr, leValue_bytes _ n⟩, fun v rest he ho => ?_, fun j t k h hk => ?_⟩
  · have hstep := (step_write_idle he ho hr).trans (unlessBusy_idle (s := { s with hostOps := rest }) he _)
    refine ⟨_, hstep, rfl, fun k hk => inByte_writeBytes v hk, fun b hb => ?_, rfl⟩
    exact readByte_writeBytes_outside (by rwa [leBytes_length])
  · have ⟨_, hin, _⟩ := hp
    have := inBase_eq
    have := outBase_eq
    exact exec_readByte_outside hp h (.inl (by omega))

/-- Settles O47: reads of the OUT window are little-endian, a host write there falls on a region that ignores it, and
a command writes no byte from OUT_LEN up. -/
theorem outWindowAccesses : Obligations.OutWindowAccesses := by
  intro s i n a hp hi hb ha
  have ⟨_, hin, _⟩ := hp
  have hr : regionOf s.params a.toNat n = some (.outWindow i) := ha ▸ regionOf_inside_out hin hi hb
  exact ⟨⟨_, memRead_of_region hr, leValue_bytes _ n⟩, fun v rest hm ho => step_write hm ho hr,
    fun j t k h hk => exec_readByte_outside hp h (.inr (Nat.add_le_add_left hk outBase))⟩

/-! ## Forbidden accesses, registers and reserved ranges -/

/-- Settles O48: an access that breaks R52 falls in no region, so neither a read nor a write has a step. -/
theorem forbiddenAccessIsRefused : Obligations.ForbiddenAccessIsRefused := by
  intro s a n rest hp hm ho hbad
  obtain ⟨-, hin, -, -, -⟩ := hp
  exact step_notAllowed hm ho (regionOf_forbidden hin hbad)

/-- Outside FAULT the issue of a command gives the engine its word (R200). -/
theorem issueCommand_engine {s : State} (hp : s.phase ≠ .fault) (w : Word) :
    (issueCommand w s).engine = some ⟨w, Config.completionDelay s.issues w s.inLen⟩ := by
  rw [issueCommand, if_neg hp]

/-- The issue of a command is no operation of the host's list (log 5). -/
theorem issueCommand_hostOps (w : Word) (s : State) : (issueCommand w s).hostOps = s.hostOps := by
  obtain ⟨e, k, h⟩ := issueCommand_frame w s
  rw [h]

/-- A write to CMD with BUSY = 0 issues the command (R200). -/
theorem step_write_cmd {s : State} {v : Word} {rest : List HostOp} (he : s.engine = none)
    (ho : s.hostOps = .write 0x000000 .word v :: rest) :
    step s = .next (issueCommand v { s with hostOps := rest }) :=
  (step_write_idle he ho (regionOf_register (by decide) (by decide))).trans
    (unlessBusy_idle (s := { s with hostOps := rest }) he _)

/-- Settles O44: each register's address falls on its region, and the region says what a write does and what a read
returns. -/
theorem registerWrites : Obligations.RegisterWrites := by
  refine ⟨fun s a v rest ho => ⟨fun ha hm => ?_, fun ha he => ?_, fun ha he hp => ?_⟩,
    fun s => ⟨memRead_register s (by decide) (by decide), memRead_register s (by decide) (by decide),
      memRead_register s (by decide) (by decide)⟩⟩
  · rcases ha with rfl | rfl | rfl | rfl
    · exact step_write hm ho (regionOf_register (by decide) (by decide))
    · exact step_write hm ho (regionOf_register (by decide) (by decide))
    · exact step_write hm ho (regionOf_register (by decide) (by decide))
    · exact step_write hm ho (regionOf_register (by decide) (by decide))
  · subst ha
    exact step_write_inLen he ho
  · subst ha
    have hengine := issueCommand_engine (s := { s with hostOps := rest }) hp v
    exact ⟨_, step_write_cmd he ho, by rw [State.busy, hengine, Option.isSome_some], issueCommand_hostOps _ _,
      by rw [hengine, Option.map_some]⟩

/-- Settles O45: an aligned access outside the registers and the windows falls in a reserved range, which reads 0 and
ignores writes. -/
theorem reservedRangesReadZero : Obligations.ReservedRangesReadZero := by
  intro s a n halign hlow hin hout
  have hr : regionOf s.params a.toNat n = some .reserved := regionOf_outside halign hlow hin hout
  exact ⟨memRead_of_region hr, fun v rest hm ho => step_write hm ho hr⟩

end Sys2Proof.Machine

/-! PROOFS. The command words (30_encoding.md): decoding and encoding, and the operand that LOADIN leaves in IN. -/

namespace Sys2Proof

/-! ## The fields of a command word -/

/-- The number of low bits to which a command's format gives a meaning; the bits above are reserved (R71). -/
def Instr.fieldBits : Instr → Nat
  | .setPadding _ => 5
  | .declareAliases _ => 9
  | .new | .setName | .declareMapping | .finalize | .encode | .decode | .getName | .getPadding => 4

/-- The command has the opcode and the fields of the word, whatever the word's reserved bits are (R71, R72). -/
structure Instr.NamedBy (i : Instr) (w : Word) : Prop where
  opcode : opcodeField w = i.opcode
  en : ∀ en, i = .setPadding en → en = w.getLsbD 4
  val : ∀ val, i = .declareAliases val → val = w.extractLsb' 4 5

/-- The opcodes of R74 with their formats: P is 0x3, V is 0x5, and every other one is N. -/
theorem Instr.opcode_format (i : Instr) :
    (i.opcode.toNat = 3 ∧ i.fieldBits = 5) ∨ (i.opcode.toNat = 5 ∧ i.fieldBits = 9) ∨
    (1 ≤ i.opcode.toNat ∧ i.opcode.toNat ≤ 0xA ∧ i.opcode.toNat ≠ 3 ∧ i.opcode.toNat ≠ 5 ∧
      i.fieldBits = 4) := by
  cases i with
  | setPadding en => exact .inl ⟨rfl, rfl⟩
  | declareAliases val => exact .inr (.inl ⟨rfl, rfl⟩)
  | new | setName | declareMapping | finalize | encode | decode | getName | getPadding =>
    exact .inr (.inr (by decide))

/-- The opcode is the word modulo 16 (R71). -/
theorem opcodeField_toNat (w : Word) : (opcodeField w).toNat = w.toNat % 16 := by
  rw [opcodeField, BitVec.extractLsb'_toNat, Nat.shiftRight_zero]

/-- The bits from `k` up are all 0 exactly when the word is below `2 ^ k`. -/
theorem highBits_eq_zero_iff (w : Word) (k : Nat) : w.extractLsb' k (32 - k) = 0 ↔ w.toNat / 2 ^ k = 0 := by
  have hlt : w.toNat / 2 ^ k < 2 ^ (32 - k) := by
    rw [Nat.div_lt_iff_lt_mul (by positivity), ← Nat.pow_add]
    exact w.isLt.trans_le (Nat.pow_le_pow_right (by decide) (by omega))
  rw [← BitVec.toNat_inj, BitVec.extractLsb'_toNat, Nat.shiftRight_eq_div_pow, Nat.mod_eq_of_lt hlt]
  rfl

theorem ofBool_getLsbD (w : Word) (k : Nat) : BitVec.ofBool (w.getLsbD k) = w.extractLsb' k 1 := by
  ext j hj
  simp [show j = 0 by omega]

/-- Bits 31:4 and the opcode make up the word (R71). -/
theorem append_opcodeField (w : Word) : w.extractLsb' 4 28 ++ opcodeField w = w := by
  rw [opcodeField, BitVec.extractLsb'_append_extractLsb'_eq_extractLsb' (Nat.zero_add 4).symm,
    BitVec.extractLsb'_eq_self]

/-- A word whose reserved bits of format N are 0 is the word of its opcode (R71). -/
theorem encodeFormatN_fields {w : Word} (hz : w.extractLsb' 4 28 = 0) : encodeFormatN (opcodeField w) = w := by
  rw [encodeFormatN, ← hz, append_opcodeField]

/-- A word whose reserved bits of format P are 0 is the word of its opcode and EN (R71). -/
theorem encodeFormatP_fields {w : Word} (hz : w.extractLsb' 5 27 = 0) :
    encodeFormatP (opcodeField w) (w.getLsbD 4) = w := by
  rw [encodeFormatP, ← hz, ofBool_getLsbD,
    BitVec.extractLsb'_append_extractLsb'_eq_extractLsb' (show 5 = 4 + 1 from rfl), append_opcodeField]

/-- A word whose reserved bits of format V are 0 is the word of its opcode and VAL (R71). -/
theorem encodeFormatV_fields {w : Word} (hz : w.extractLsb' 9 23 = 0) :
    encodeFormatV (opcodeField w) (w.extractLsb' 4 5) = w := by
  rw [encodeFormatV, ← hz, BitVec.extractLsb'_append_extractLsb'_eq_extractLsb' (show 9 = 4 + 5 from rfl),
    append_opcodeField]

/-! ## What the decoder answers -/

/-- The word names a command, and the answer `d` is that command unless a reserved bit of its format is 1 (R75). -/
def Names (w : Word) (d : Except Illegal Instr) : Prop :=
  ∃ i : Instr, i.NamedBy w ∧
    d = if w.extractLsb' i.fieldBits (32 - i.fieldBits) = 0 then .ok i else .error .reservedBits

theorem names_decodeFormatN {w : Word} {i : Instr} (hopc : (opcodeField w).toNat = i.opcode.toNat)
    (hi : i.fieldBits = 4) : Names w (decodeFormatN w i) := by
  refine ⟨i, ⟨BitVec.eq_of_toNat_eq hopc, fun en h => ?_, fun val h => ?_⟩, by rw [hi]; rfl⟩
  · cases h
    cases hi
  · cases h
    cases hi

theorem names_decodeFormatP {w : Word} (hopc : (opcodeField w).toNat = 3) :
    Names w (decodeFormatP w .setPadding) :=
  ⟨.setPadding (w.getLsbD 4),
    ⟨BitVec.eq_of_toNat_eq hopc, fun _ h => (Instr.setPadding.inj h).symm, nofun⟩, rfl⟩

theorem names_decodeFormatV {w : Word} (hopc : (opcodeField w).toNat = 5) :
    Names w (decodeFormatV w .declareAliases) :=
  ⟨.declareAliases (w.extractLsb' 4 5),
    ⟨BitVec.eq_of_toNat_eq hopc, nofun, fun _ h => (Instr.declareAliases.inj h).symm⟩, rfl⟩

/-- Everything the decoder does (R75): a reserved opcode is illegal, and every other one names a command. -/
theorem decode_cases (w : Word) :
    (((opcodeField w).toNat = 0 ∨ 0xB ≤ (opcodeField w).toNat) ∧ decode w = .error .reservedOpcode) ∨
    Names w (decode w) := by
  unfold decode
  split
  next hopc => exact .inr (names_decodeFormatN hopc rfl)
  next hopc => exact .inr (names_decodeFormatN hopc rfl)
  next hopc => exact .inr (names_decodeFormatP hopc)
  next hopc => exact .inr (names_decodeFormatN hopc rfl)
  next hopc => exact .inr (names_decodeFormatV hopc)
  next hopc => exact .inr (names_decodeFormatN hopc rfl)
  next hopc => exact .inr (names_decodeFormatN hopc rfl)
  next hopc => exact .inr (names_decodeFormatN hopc rfl)
  next hopc => exact .inr (names_decodeFormatN hopc rfl)
  next hopc => exact .inr (names_decodeFormatN hopc rfl)
  next =>
    refine .inl ⟨?_, rfl⟩
    simp only [imp_false] at *
    omega

/-! ## Decoding and encoding -/

/-- The word of a command decodes to it: none of its fields is lost. -/
theorem decode_encode (i : Instr) : decode (encode i) = .ok i := by
  cases i with
  | setPadding en => revert en; decide
  | declareAliases val => revert val; decide
  | new | setName | declareMapping | finalize | encode | decode | getName | getPadding => rfl

/-- A word whose reserved bits are 0 is the word of the command it names. -/
theorem Instr.NamedBy.encode_eq {i : Instr} {w : Word} (h : i.NamedBy w)
    (hz : w.extractLsb' i.fieldBits (32 - i.fieldBits) = 0) : Sys2Proof.encode i = w := by
  obtain ⟨hopc, hen, hval⟩ := h
  cases i with
  | setPadding en =>
    rw [Sys2Proof.encode, ← hopc, hen en rfl]
    exact encodeFormatP_fields hz
  | declareAliases val =>
    rw [Sys2Proof.encode, ← hopc, hval val rfl]
    exact encodeFormatV_fields hz
  | new | setName | declareMapping | finalize | encode | decode | getName | getPadding =>
    rw [Sys2Proof.encode, ← hopc]
    exact encodeFormatN_fields hz

/-- A word that decodes is the word of its command. -/
theorem encode_of_decode {w : Word} {i : Instr} (h : decode w = .ok i) : encode i = w := by
  rcases decode_cases w with ⟨-, hd⟩ | ⟨j, hj, hd⟩
  · rw [hd] at h
    cases h
  · rw [hd] at h
    split at h
    next hz =>
      cases h
      exact hj.encode_eq hz
    next => cases h

/-- Settles O2: the encoder is the inverse of the decoder on both sides. -/
theorem decodeInvertsEncode : Obligations.DecodeInvertsEncode :=
  fun _ i _ => ⟨fun h => (encode_of_decode h).symm, fun h => h ▸ decode_encode i⟩

/-- Settles O3: the opcode tells the reserved ones from the commands, and the format of the named command tells which
bits are reserved. -/
theorem decodingIsTotalInOrder : Obligations.DecodingIsTotalInOrder := by
  intro w opc reservedBits
  have hopc : (opcodeField w).toNat = opc := opcodeField_toNat w
  rcases decode_cases w with ⟨hr, hd⟩ | ⟨i, hi, hd⟩
  · rw [hopc] at hr
    exact ⟨fun _ => hd, fun _ _ _ => by omega, fun _ _ _ => by omega⟩
  · have hiopc : i.opcode.toNat = opc := hi.opcode ▸ hopc
    have hformat := i.opcode_format
    have hreserved : reservedBits ↔ ¬ w.extractLsb' i.fieldBits (32 - i.fieldBits) = 0 := by
      rw [highBits_eq_zero_iff]
      rcases hformat with ⟨ho, hf⟩ | ⟨ho, hf⟩ | ⟨-, -, h3, h5, hf⟩ <;> rw [hf] <;> omega
    refine ⟨fun _ => by omega, fun _ _ hb => hd.trans (if_neg (hreserved.mp hb)),
      fun _ _ hb => ⟨i, hd.trans (if_pos (not_not.mp (mt hreserved.mpr hb))), hiopc, hi.en, fun val hv => ?_⟩⟩
    rw [hi.val val hv, BitVec.extractLsb'_toNat, Nat.shiftRight_eq_div_pow]

/-- Settles O1: each legal word is the encoding of its command, and the decoder rejects the others. -/
theorem specWordsDecode : Obligations.SpecWordsDecode :=
  ⟨decode_encode .new, decode_encode .setName, decode_encode (.setPadding false), decode_encode (.setPadding true),
    decode_encode .declareMapping, decode_encode (.declareAliases 0), decode_encode (.declareAliases 31),
    decode_encode .finalize, decode_encode .encode, decode_encode .decode, decode_encode .getName,
    decode_encode .getPadding, rfl, rfl, rfl, rfl⟩

end Sys2Proof

namespace Sys2Proof.Machine

/-! ## LOADIN -/

/-- A byte access writes its one byte (R54). -/
theorem leBytes_byte (b : Byte) : leBytes (b.setWidth 32) .byte = [b] := by
  simp [leBytes, Width.bytes, ← BitVec.setWidth_eq_extractLsb']

/-- A byte written to `IN[i]` with BUSY = 0 (R57). -/
theorem step_write_inByte {s : State} {i : Nat} {b : Byte} {rest : List HostOp} (hp : s.params.Valid)
    (he : s.engine = none) (hi : i < s.params.inMax)
    (ho : s.hostOps = .write (BitVec.ofNat 24 (inBase + i)) .byte (b.setWidth 32) :: rest) :
    step s = .next { s with mem := s.mem.write (inBase + i) b, hostOps := rest } := by
  obtain ⟨-, hin, -⟩ := hp
  have haddr : (BitVec.ofNat 24 (inBase + i)).toNat = 0x100000 + i := by
    rw [BitVec.toNat_ofNat, inBase_eq]
    omega
  have hr : regionOf s.params (BitVec.ofNat 24 (inBase + i)).toNat .byte = some (.inWindow i) := by
    rw [haddr]
    exact regionOf_inside_in (Nat.mod_one i) hi
  rw [step_write_idle he ho hr, hostWrite, leBytes_byte]
  exact unlessBusy_idle (s := { s with hostOps := rest }) he _

/-- The byte writes of LOADIN, one host turn each, store the bytes from `IN[i]` up (R78). -/
theorem run_loadBytesFrom {s : State} {data : List Byte} {i : Nat} {rest : List HostOp} (k : Nat)
    (hp : s.params.Valid) (he : s.engine = none) (hfit : i + data.length ≤ s.params.inMax)
    (ho : s.hostOps = loadBytesFrom i data ++ rest) :
    Sys2Proof.core.run (data.length + k) s =
      Sys2Proof.core.run k { s with mem := s.mem.writeBytes (inBase + i) data, hostOps := rest } := by
  induction data generalizing s i with
  | nil =>
    rw [List.length_nil, Nat.zero_add, Memory.writeBytes, ← show s.hostOps = rest from ho]
  | cons b bs ih =>
    rw [List.length_cons] at hfit
    have hfit' : i + 1 + bs.length ≤ s.params.inMax := by omega
    have hstep := step_write_inByte hp he (by omega) ho
    rw [List.length_cons, Nat.add_right_comm, run_succ_next _ hstep]
    exact ih (s := { s with mem := s.mem.write (inBase + i) b, hostOps := loadBytesFrom (i + 1) bs ++ rest })
      hp he hfit' rfl

/-- LOADIN on an idle block, as one update of the state (R78). -/
theorem run_loadIn {s : State} {data : List Byte} {rest : List HostOp} (hp : s.params.Valid) (he : s.engine = none)
    (hfit : data.length ≤ s.params.inMax) (ho : s.hostOps = (HostLine.loadIn data).expand ++ rest) :
    Sys2Proof.core.run (data.length + 1) s = .next { s with
      mem := s.mem.writeBytes inBase data, inLen := BitVec.ofNat 32 data.length, hostOps := rest } := by
  rw [HostLine.expand, List.append_assoc] at ho
  rw [run_loadBytesFrom 1 hp he (by omega) ho, run_one]
  exact step_write_inLen he rfl

/-- Settles O10: the writes of LOADIN are one update of the state, and a length that fits IN fits IN_LEN. -/
theorem loadInStoresOperand : Obligations.LoadInStoresOperand := by
  intro s data rest hp he hfit ho
  refine ⟨_, run_loadIn hp he hfit ho, rfl, ?_, fun i b hb => ?_, fun a ha => ?_, rfl⟩
  · obtain ⟨-, hin, -⟩ := hp
    exact Nat.mod_eq_of_lt (by omega)
  · obtain ⟨hi, rfl⟩ := List.getElem?_eq_some_iff.mp hb
    simp only [State.inByte, State.readByte, Memory.read_writeBytes_inside _ _ _ hi, Option.getD_some]
  · exact readByte_writeBytes_outside ha

end Sys2Proof.Machine

/-! PROOFS. The builder commands (40_builder.md): what each of them writes of the slot, and which mappings
FINALIZE freezes. -/

namespace Sys2Proof.Machine

/-! ## The checks of a builder command -/

/-- In BUILDING a builder command takes its own effect (R206). -/
theorem inPhase_building {s : State} (hp : s.phase = .building) (k : Answer) : inPhase .building s k = k :=
  inPhase_eq hp (by decide) k

/-- In FROZEN a builder command raises ERR_PHASE (R206). -/
theorem inPhase_building_of_frozen {s : State} (hp : s.phase = .frozen) (k : Answer) :
    inPhase .building s k = .next (raiseError .phase s) :=
  inPhase_ne (by simp [hp]) (by simp [hp]) k

/-- Byte `i` of the operand is `IN[i]` (R73). -/
theorem operand_getElem? {s : State} {i : Nat} (h : i < s.inLen.toNat) : s.operand[i]? = some (s.inByte i) := by
  rw [List.getElem?_eq_getElem (by simpa using h), operand_getElem]

/-! ## NEW, SET_NAME and SET_PADDING -/

/-- Settles O11: the tables of a fresh slot are the ones of reset, which hold no entry. -/
theorem newStartsFreshBuilder : Obligations.NewStartsFreshBuilder :=
  ⟨decode_encode .new, fun _ hp => ⟨unlessFault_ne hp _, Fwd.get_clear, Rev.get_clear⟩⟩

/-- Settles O12: the label is the operand. -/
theorem setNameStoresLabel : Obligations.SetNameStoresLabel :=
  ⟨decode_encode .setName, fun s =>
    ⟨fun hp => inPhase_building_of_frozen hp _,
      fun hp hl => (inPhase_building hp _).trans (withOperand_tooLong hl _),
      fun hp hl => ⟨s.operand, operand_length s, fun _ => operand_getElem?,
        (inPhase_building hp _).trans (withOperand_fits hl _)⟩⟩⟩

/-- Settles O13: with EN = 1 the one entry written is the one of `'='`. -/
theorem setPaddingWritesPadAndRev : Obligations.SetPaddingWritesPadAndRev := by
  refine ⟨decode_encode (.setPadding false), decode_encode (.setPadding true), fun s en =>
    ⟨fun hp => inPhase_building_of_frozen hp _, fun hp => ⟨_, inPhase_building hp _, ?_⟩⟩⟩
  cases en with
  | false => exact ⟨nofun, fun _ => rfl, fun _ _ => rfl⟩
  | true => exact ⟨fun _ => ⟨cid_padChar, Rev.get_put_same _ _ _⟩, nofun, fun _ hc => Rev.get_put_other _ _ hc⟩

/-! ## DECLARE_MAPPING -/

/-- Position `i` fills an INVALID entry `FWD[i]` with its Symbol and keeps a declared one (R104). -/
theorem declarePosition_fwd_same (i : Value) (b : Byte) (t : Fwd × Rev) :
    (declarePosition i b t).1.get i = (t.1.get i).or ((some b).filter isSymbol) := by
  unfold declarePosition
  by_cases hb : isSymbol b = true
  · cases h : t.1.get i <;> simp [hb, h, Option.filter]
  · simp [hb, Option.filter]

/-- Position `i` writes no other entry of FWD. -/
theorem declarePosition_fwd_other {i v : Value} (h : v ≠ i) (b : Byte) (t : Fwd × Rev) :
    (declarePosition i b t).1.get v = t.1.get v := by
  unfold declarePosition
  split
  · dsimp only
    split
    · exact Fwd.get_put_other _ _ h
    · rfl
  · rfl

/-- A byte that is no Symbol has no REV entry, so every position is one Symbol write of REV (R104). -/
theorem declarePosition_rev (i : Value) (b : Byte) (t : Fwd × Rev) :
    (declarePosition i b t).2 = t.2.putSymbol b i := by
  unfold declarePosition
  split
  · rfl
  · next hb =>
    have hcid : cid b = none := (cid_eq_none_iff b).mpr (by simpa using hb)
    rw [Rev.putSymbol, hcid]

/-- The first declaration wins: FWD takes the Symbol at a position from `i` up where it was INVALID. -/
theorem declareFrom_fwd {i : Nat} {bs : List Byte} (hfit : i + bs.length ≤ 32) (t : Fwd × Rev) (v : Value) :
    (declareFrom i bs t).1.get v =
      if i ≤ v.toNat then (t.1.get v).or (bs[v.toNat - i]?.filter isSymbol) else t.1.get v := by
  induction bs generalizing i t with
  | nil => simp [declareFrom]
  | cons b bs ih =>
    rw [List.length_cons] at hfit
    have hi : (BitVec.ofNat 5 i).toNat = i := Nat.mod_eq_of_lt (by omega)
    rw [declareFrom, ih (by omega)]
    rcases lt_trichotomy v.toNat i with hv | hv | hv
    · rw [if_neg (by omega), if_neg (by omega), declarePosition_fwd_other (by rintro rfl; omega)]
    · obtain rfl : v = BitVec.ofNat 5 i := BitVec.eq_of_toNat_eq (hv.trans hi.symm)
      rw [if_neg (by omega), if_pos (by omega), declarePosition_fwd_same, hi, Nat.sub_self,
        List.getElem?_cons_zero]
    · rw [if_pos (by omega), if_pos (by omega), declarePosition_fwd_other (by rintro rfl; omega),
        show v.toNat - i = v.toNat - (i + 1) + 1 by omega, List.getElem?_cons_succ]

/-- A REV entry whose Symbol is not declared is kept. -/
theorem declareFrom_rev_kept {bs : List Byte} {c : Fin 75} (h : ∀ b ∈ bs, cid b ≠ some c) (i : Nat)
    (t : Fwd × Rev) : (declareFrom i bs t).2.get c = t.2.get c := by
  induction bs generalizing i t with
  | nil => rfl
  | cons b bs ih =>
    obtain ⟨hb, hbs⟩ := List.forall_mem_cons.mp h
    rw [declareFrom, ih hbs, declarePosition_rev, Rev.get_putSymbol, if_neg hb]

/-- The last write wins: REV holds the last position of a Symbol. -/
theorem declareFrom_rev_last {bs : List Byte} {k : Nat} {b : Byte} {c : Fin 75} (hk : bs[k]? = some b)
    (hb : cid b = some c) (hlast : ∀ b' ∈ bs.drop (k + 1), cid b' ≠ some c) (i : Nat) (t : Fwd × Rev) :
    (declareFrom i bs t).2.get c = some (BitVec.ofNat 5 (i + k)) := by
  induction bs generalizing k i t with
  | nil => simp at hk
  | cons a bs ih =>
    cases k with
    | zero =>
      obtain rfl : a = b := by simpa using hk
      rw [declareFrom, declareFrom_rev_kept (bs := bs) hlast, declarePosition_rev, Rev.get_putSymbol, if_pos hb,
        Nat.add_zero]
    | succ k => rw [declareFrom, ih (by simpa using hk) hlast, Nat.add_right_comm, Nat.add_assoc]

/-- DECLARE_MAPPING has its operand on a block whose IN holds 32 bytes (R104). -/
theorem withMappingOperand_fits {s : State} (hlen : s.inLen = 32) (hfit : 32 ≤ s.params.inMax)
    (k : List Byte → Answer) : withMappingOperand s k = k s.operand :=
  (if_pos hlen).trans (withOperand_fits (by rwa [hlen]) k)

/-- A byte of a mapping operand from position `k` up stands at a position that is a 5-bit value (R104). -/
theorem exists_position_of_mem_drop {s : State} (hlen : s.inLen = 32) {k : Nat} {b : Byte}
    (hb : b ∈ s.operand.drop k) : ∃ u : Value, k ≤ u.toNat ∧ s.inByte u.toNat = b := by
  obtain ⟨j, hj, rfl⟩ := List.mem_drop_iff_getElem.mp hb
  have hlt : k + j < 2 ^ 5 := by simpa [hlen, Nat.add_comm] using hj
  refine ⟨BitVec.ofNat 5 (k + j), ?_⟩
  rw [BitVec.toNat_ofNat, Nat.mod_eq_of_lt hlt, operand_getElem]
  exact ⟨Nat.le_add_right k j, rfl⟩

/-- Settles O14: FWD by the entry's own position, REV by the last position that holds its Symbol. -/
theorem declareMappingFirstWinsLastWins : Obligations.DeclareMappingFirstWinsLastWins := by
  refine ⟨decode_encode .declareMapping, fun s hp hlen hfit =>
    ⟨_, _, (inPhase_building hp _).trans (withMappingOperand_fits hlen hfit _), fun v => ?_,
      fun c v hv hlast => ?_, fun c hc => ?_⟩⟩
  · have hv : v.toNat < s.inLen.toNat := hlen ▸ v.isLt
    rw [declareFrom_fwd (by simp [hlen]), if_pos (Nat.zero_le _), Nat.sub_zero, operand_getElem? hv]
    cases s.fwd.get v <;> simp [Option.filter]
  · have hv' : v.toNat < s.inLen.toNat := hlen ▸ v.isLt
    have hpost : ∀ b ∈ s.operand.drop (v.toNat + 1), cid b ≠ some c := by
      intro b hb
      obtain ⟨u, hu, rfl⟩ := exists_position_of_mem_drop hlen hb
      exact hlast u hu
    simpa using declareFrom_rev_last (operand_getElem? hv') hv hpost 0 (s.fwd, s.rev)
  · refine declareFrom_rev_kept (fun b hb => ?_) 0 _
    obtain ⟨u, -, rfl⟩ := exists_position_of_mem_drop (k := 0) hlen hb
    exact hc u

/-! ## DECLARE_ALIASES -/

/-- After the same value is written for every Symbol of a list, REV holds it exactly at their entries (R105). -/
theorem Rev.get_foldl_putSymbol (r : Rev) (bs : List Byte) (val : Value) (c : Fin 75) :
    (bs.foldl (fun r b => r.putSymbol b val) r).get c = if some c ∈ bs.map cid then some val else r.get c := by
  induction bs generalizing r with
  | nil => simp
  | cons b bs ih =>
    rw [List.foldl_cons, ih, Rev.get_putSymbol]
    simp only [List.map_cons, List.mem_cons, eq_comm (a := some c)]
    by_cases hbs : some c ∈ bs.map cid
    · rw [if_pos hbs, if_pos (.inr hbs)]
    · simp only [hbs, if_false, or_false]

/-- The word of DECLARE_ALIASES has VAL at bits 8:4 (R74). -/
theorem encode_declareAliases (val : Value) :
    encode (.declareAliases val) = BitVec.ofNat 32 (5 + 16 * val.toNat) := by
  revert val
  decide

/-- The code-identities of the operand are the ones of its Symbols (R73). -/
theorem mem_map_cid_operand {s : State} {c : Fin 75} :
    some c ∈ s.operand.map cid ↔ ∃ k < s.inLen.toNat, cid (s.inByte k) = some c := by
  simp [State.operand, State.inBytes]

/-- Settles O15: the Symbols of the operand have VAL at their REV entries, whatever their order. -/
theorem declareAliasesOverwritesRev : Obligations.DeclareAliasesOverwritesRev := by
  refine ⟨fun val => encode_declareAliases val ▸ decode_encode (.declareAliases val), fun s val =>
    ⟨fun hp => inPhase_building_of_frozen hp _,
      fun hp hl => (inPhase_building hp _).trans (withOperand_tooLong hl _),
      fun hp hl => ⟨_, (inPhase_building hp _).trans (withOperand_fits hl _), fun k c hk hc => ?_,
        fun c hc => ?_⟩⟩⟩
  · rw [Rev.get_foldl_putSymbol, if_pos (mem_map_cid_operand.mpr ⟨k, hk, hc⟩)]
  · rw [Rev.get_foldl_putSymbol, if_neg]
    intro hmem
    obtain ⟨k, hk, hkc⟩ := mem_map_cid_operand.mp hmem
    exact hc k hk hkc

/-! ## FINALIZE -/

/-- The slot meets R36 exactly when none of the three invariants fails (R106). -/
theorem State.slotOk_iff (s : State) :
    s.SlotOk ↔ ¬ (∃ v, s.fwd.get v = none) ∧ ¬ (∃ v, ∀ c, s.rev.get c ≠ some v) ∧
      ¬ (s.pad = true ∧ s.rev.get padCid ≠ some 0) := by
  rw [← s.finalizeCause_none_iff, ← Fwd.incomplete_iff, ← Rev.notSurjective_iff, ← padNotZero_iff]
  simp [State.finalizeCause, CfgCause.none]

/-- FINALIZE freezes a slot that meets R36. -/
theorem exec_finalize_freezes {s : State} (hp : s.phase = .building) (ok : s.SlotOk) :
    exec .finalize s = .next (completeOk { s with phase := .frozen }) :=
  (inPhase_building hp _).trans (if_pos (s.finalizeCause_none_iff.mpr ok))

/-- FINALIZE faults on a slot that breaks R36, and records what it found (R106). -/
theorem exec_finalize_fails {s : State} (hp : s.phase = .building) (bad : ¬ s.SlotOk) :
    exec .finalize s =
      .next (raiseError .config { s with cfgCause := s.finalizeCause, phase := .fault }) :=
  (inPhase_building hp _).trans (if_neg (mt s.finalizeCause_none_iff.mp bad))

/-- Settles O16: FINALIZE freezes the slot exactly when it meets R36, and each cause bit is its own check. -/
theorem finalizeChecksThreeInvariants : Obligations.FinalizeChecksThreeInvariants := by
  refine ⟨decode_encode .finalize, fun s => ?_⟩
  refine ⟨fun hp => inPhase_building_of_frozen hp _,
    fun hp hf hr hz => exec_finalize_freezes hp (s.slotOk_iff.mpr ⟨hf, hr, hz⟩),
    fun hp hbad => ⟨s.finalizeCause, exec_finalize_fails hp fun ok => ?_, s.fwd.incomplete_iff,
      s.rev.notSurjective_iff, padNotZero_iff s.pad s.rev⟩⟩
  obtain ⟨hf, hr, hz⟩ := s.slotOk_iff.mp ok
  rcases hbad with h | h | h
  · exact hf h
  · exact hr h
  · exact hz h

/-! ## A mapping of distinct Symbols -/

/-- `cid(b) = c` is `b = c + 0x30` (R12). -/
theorem cid_eq_some_iff {b : Byte} {c : Fin 75} : cid b = some c ↔ b.toNat = c.val + 0x30 := by
  constructor
  · intro h
    have hb : isSymbol b = true := (cid_isSome_iff b).mp (by simp [h])
    have hrange : 0x30 ≤ b.toNat ∧ b.toNat ≤ 0x7A := by simpa [isSymbol] using hb
    have hval := cid_val h
    omega
  · intro h
    have hc := c.isLt
    rw [cid, dif_pos (by omega)]
    exact congrArg some (Fin.ext (by simp [h]))

/-- A code-identity has one Symbol (R12). -/
theorem cid_inj {a b : Byte} {c : Fin 75} (ha : cid a = some c) (hb : cid b = some c) : a = b :=
  BitVec.eq_of_toNat_eq ((cid_eq_some_iff.mp ha).trans (cid_eq_some_iff.mp hb).symm)

/-- Settles O17: after the mapping every FWD entry is its Symbol, and no later position takes the REV entry of a
Symbol, so the slot meets R36. -/
theorem distinctMappingFinalizes : Obligations.DistinctMappingFinalizes := by
  intro s hp hempty hlen hfit hsymbol hdistinct hpad
  obtain ⟨f, r, hexec, hfwd, hlast, hkept⟩ := declareMappingFirstWinsLastWins.2 s hp hlen hfit
  have hsym (v : Value) : isSymbol (s.inByte v.toNat) = true := hsymbol v.toNat v.isLt
  have hrev {v : Value} {c : Fin 75} (hv : cid (s.inByte v.toNat) = some c) : r.get c = some v := by
    refine hlast c v hv fun u hu huc => hu.ne' ?_
    exact hdistinct u.toNat v.toNat u.isLt v.isLt (cid_inj huc hv)
  refine ⟨_, _, hexec, exec_finalize_freezes hp ⟨fun v => ?_, fun v => ?_, fun hs => ?_⟩, rfl, rfl⟩
  · exact ⟨s.inByte v.toNat, (hfwd v).trans (if_pos ⟨hempty v, hsym v⟩)⟩
  · obtain ⟨c, hc⟩ := Option.isSome_iff_exists.mp ((cid_isSome_iff _).mpr (hsym v))
    exact ⟨c, hrev hc⟩
  · obtain ⟨hzero, hfirst⟩ := hpad hs
    by_cases hu : ∃ u : Value, cid (s.inByte u.toNat) = some padCid
    · obtain ⟨u, hu⟩ := hu
      obtain rfl : u = 0 := BitVec.eq_of_toNat_eq (hfirst u.toNat u.isLt (cid_inj hu cid_padChar))
      exact hrev hu
    · exact (hkept padCid fun u hc => hu ⟨u, hc⟩).trans hzero

end Sys2Proof.Machine

/-! PROOFS. ENCODE (41_encode.md): the groups of a chunk, the symbols of the text and where they stand in OUT, its
length, and what ENCODE leaves as it is. -/

namespace Sys2Proof.Machine

/-! ## The groups of a chunk -/

/-- Bits of a bit range are bits of the whole word. -/
theorem extractLsb'_of_extractLsb' {w k m i n : Nat} (x : BitVec w) (h : i + n ≤ m) :
    (x.extractLsb' k m).extractLsb' i n = x.extractLsb' (k + i) n := by
  refine BitVec.eq_of_getLsbD_eq fun j hj => ?_
  have hm : i + j < m := by omega
  simp [hj, hm, Nat.add_assoc]

/-- Bits of byte `t` of a chunk are bits of its word (R132). -/
theorem extractLsb'_chunkByte (c : List Byte) (t i n : Nat) (ht : t < 5) (h : i + n ≤ 8) :
    (c.getD t 0).extractLsb' i n = (chunkWord c).extractLsb' (32 - 8 * t + i) n := by
  rw [← chunkWord_byte c t ht, extractLsb'_of_extractLsb' _ h]

/-- The low `m` bits of byte `t` of a chunk and the top `n` bits of the byte after it are one bit range of its
word (R132). -/
theorem extractLsb'_acrossBytes (c : List Byte) (t m n : Nat) (ht : t + 1 < 5) (hm : m ≤ 8) (hn : n ≤ 8) :
    (c.getD t 0).extractLsb' 0 m ++ (c.getD (t + 1) 0).extractLsb' (8 - n) n =
      (chunkWord c).extractLsb' (32 - 8 * t - n) (m + n) := by
  rw [extractLsb'_chunkByte c t 0 m (by omega) (by omega), extractLsb'_chunkByte c (t + 1) (8 - n) n ht (by omega),
    BitVec.extractLsb'_append_extractLsb'_eq_extractLsb' (by omega)]
  congr 1
  omega

/-- Settles O18: four groups lie inside one byte and four go over two, and the bits of both are bits of the word. -/
theorem groupsAreTheBitsOfTheChunk : Obligations.GroupsAreTheBitsOfTheChunk := fun c _ =>
  ⟨(extractLsb'_chunkByte c 0 3 5 (by decide) (by decide)).symm,
    (extractLsb'_acrossBytes c 0 3 2 (by decide) (by decide) (by decide)).symm,
    (extractLsb'_chunkByte c 1 1 5 (by decide) (by decide)).symm,
    (extractLsb'_acrossBytes c 1 1 4 (by decide) (by decide) (by decide)).symm,
    (extractLsb'_acrossBytes c 2 4 1 (by decide) (by decide) (by decide)).symm,
    (extractLsb'_chunkByte c 3 2 5 (by decide) (by decide)).symm,
    (extractLsb'_acrossBytes c 3 2 3 (by decide) (by decide) (by decide)).symm,
    (extractLsb'_chunkByte c 4 0 5 (by decide) (by decide)).symm⟩

/-! ## The blocks of the text -/

/-- A chunk has at most 8 genuine groups (R133). -/
theorem genuine_le {r : Nat} (h : r ≤ 5) : genuine r ≤ 8 := by
  unfold genuine
  omega

/-- What one chunk becomes: its genuine groups through FWD, and `'='` up to 8 (R130, R134). -/
theorem encodeChunk_getElem {f : Fwd} {pad : Bool} {c b : List Byte} (h : encodeChunk f pad c = some b)
    {j : Nat} (hj : j < b.length) :
    (j < genuine c.length → f.get (groupOf (chunkWord c) j) = some b[j]) ∧
      (genuine c.length ≤ j → b[j] = padChar) := by
  simp only [encodeChunk, Option.map_eq_some_iff] at h
  obtain ⟨syms, hsyms, rfl⟩ := h
  obtain ⟨hlen, hget⟩ := mapM_getElem hsyms
  rw [List.length_range] at hlen
  refine ⟨fun hg => ?_, fun hg => ?_⟩
  · rw [List.getElem_append_left (by omega)]
    have hsym := hget j (by simpa using hg) (by omega)
    rwa [List.getElem_range] at hsym
  · rw [List.getElem_append_right (by omega)]
    cases pad with
    | true => simp
    | false =>
      simp only [Bool.false_eq_true, if_false, List.append_nil] at hj
      omega

/-- The text is the concatenation of one block a chunk, in their order (R130). -/
theorem encodeText_blocks {f : Fwd} {pad : Bool} {data t : List Byte} (h : encodeText f pad data = some t) :
    ∃ blocks : List (List Byte), t = blocks.flatten ∧ blocks.length = (data.length + 4) / 5 ∧
      ∀ k (hk : k < blocks.length), encodeChunk f pad ((data.drop (5 * k)).take 5) = some blocks[k] := by
  simp only [encodeText, Option.map_eq_some_iff] at h
  obtain ⟨blocks, hblocks, rfl⟩ := h
  obtain ⟨hlen, hget⟩ := mapM_getElem hblocks
  refine ⟨blocks, rfl, by simpa using hlen, fun k hk => ?_⟩
  rw [← chunksOf_getElem 5 data k (hlen ▸ hk)]
  exact hget k (hlen ▸ hk) hk

/-- Chunk `k` has 5 bytes, the last one what is left (R130). -/
theorem length_chunk (data : List Byte) (k : Nat) :
    ((data.drop (5 * k)).take 5).length = min 5 (data.length - 5 * k) := by
  simp

/-- Every block but the last has 8 symbols (R131). -/
theorem length_fullBlock {f : Fwd} {pad : Bool} {data b : List Byte} {k : Nat}
    (h : encodeChunk f pad ((data.drop (5 * k)).take 5) = some b) (hk : 5 * (k + 1) ≤ data.length) :
    b.length = 8 := by
  have hgenuine : genuine 5 = 8 := rfl
  rw [encodeChunk_length h, length_chunk, show min 5 (data.length - 5 * k) = 5 by omega, hgenuine]
  cases pad <;> rfl

/-- The length of the text under either padding setting (R131). -/
theorem encodeText_length {f : Fwd} {pad : Bool} {data t : List Byte} (h : encodeText f pad data = some t) :
    t.length = 8 * (data.length / 5) +
      if pad then (if 0 < data.length % 5 then 8 else 0) else genuine (data.length % 5) := by
  obtain ⟨blocks, rfl, hcount, hblock⟩ := encodeText_blocks h
  rcases Nat.eq_zero_or_pos data.length with hn | hn
  · obtain rfl : blocks = [] := List.eq_nil_of_length_eq_zero (by omega)
    cases pad <;> simp [hn, genuine]
  · have hlast := encodeChunk_length (hblock ((data.length - 1) / 5) (by omega))
    rw [length_flatten_blocks 8 ((data.length - 1) / 5) blocks (by omega)
      (fun k hk hk' => length_fullBlock (hblock k hk) (by omega)), hlast, length_chunk]
    unfold genuine
    cases pad with
    | false =>
      simp only [Bool.false_eq_true, if_false]
      omega
    | true =>
      simp only [if_true]
      split <;> omega

/-- Settles O20: the two lengths are the cases of `encodeText_length`, the bound is `encodeText_length_le`. -/
theorem encodedLength : Obligations.EncodedLength := by
  intro f data t pad h
  have hlen := encodeText_length h
  refine ⟨?_, ?_, encodeText_length_le h⟩
  · rintro rfl
    exact hlen
  · rintro rfl
    rw [if_pos rfl] at hlen
    exact ⟨hlen, by split at hlen <;> omega, by split at hlen <;> omega⟩

/-! ## The text in OUT -/

/-- Element `j` of block `k` of a text is its element `8k + j`: a symbol of its chunk or a filler (R130, R134). -/
theorem encodeText_getElem {f : Fwd} {pad : Bool} {data t : List Byte} (h : encodeText f pad data = some t)
    {k j : Nat} (hk : k < (data.length + 4) / 5)
    (hj : j < genuine (min 5 (data.length - 5 * k)) ∨ pad = true ∧ j < 8) :
    ∃ hlt : 8 * k + j < t.length,
      (j < genuine (min 5 (data.length - 5 * k)) →
        f.get (groupOf (chunkWord ((data.drop (5 * k)).take 5)) j) = some t[8 * k + j]) ∧
      (genuine (min 5 (data.length - 5 * k)) ≤ j → t[8 * k + j] = padChar) := by
  obtain ⟨blocks, rfl, hcount, hblock⟩ := encodeText_blocks h
  have hkb : k < blocks.length := by omega
  have hjb : j < blocks[k].length := by
    have hg := genuine_le (Nat.min_le_left 5 (data.length - 5 * k))
    rw [encodeChunk_length (hblock k hkb), length_chunk]
    rcases hj with hj | ⟨rfl, hj⟩
    · omega
    · rw [if_pos rfl]
      omega
  obtain ⟨hlt, hget⟩ := List.getElem?_eq_some_iff.mp <| getElem?_flatten_blocks 8 blocks
    (fun i hi hi' => length_fullBlock (hblock i hi) (by omega)) k j hkb hjb
  have hchunk := encodeChunk_getElem (hblock k hkb) hjb
  rw [length_chunk] at hchunk
  exact ⟨hlt, hget ▸ hchunk⟩

/-- Byte `t` of chunk `k` of the operand, zero where it is missing (R132). -/
theorem chunk_operand_getD (s : State) (k : Nat) {t : Nat} (ht : t < 5) :
    ((s.operand.drop (5 * k)).take 5).getD t 0 = s.dataByte (5 * k + t) := by
  rw [List.getD_eq_getElem?_getD, List.getElem?_take_of_lt ht, List.getElem?_drop, State.dataByte]
  split
  · next hlt => rw [operand_getElem? hlt, Option.getD_some]
  · next hge => rw [List.getElem?_eq_none (by simpa using hge), Option.getD_none]

/-- The word of chunk `k` of the operand (R132). -/
theorem chunkWord_operand (s : State) (k : Nat) :
    chunkWord ((s.operand.drop (5 * k)).take 5) = s.dataWord k := by
  simp (disch := decide) only [chunkWord, chunk_operand_getD, State.dataWord, Nat.add_zero]

/-- A result that fits OUT has its own length in OUT_LEN (R5, R34). -/
theorem outLen_storeOut {s : State} {d : List Byte} (hp : s.params.Valid) (hd : d.length ≤ s.params.outMax) :
    (s.storeOut d).outLen.toNat = d.length := by
  obtain ⟨-, -, hout, -, -⟩ := hp
  exact Nat.mod_eq_of_lt (by omega)

/-- ENCODE with an operand longer than IN (R207). -/
theorem exec_encode_tooLong {s : State} (hp : s.phase = .frozen) (hl : s.params.inMax < s.inLen.toNat) :
    exec .encode s = .next (raiseError .length s) :=
  (inPhase_eq hp (by decide) _).trans (withOperand_tooLong hl _)

/-- ENCODE stores the text of its operand (R130). -/
theorem exec_encode_stores {s : State} {d : List Byte} (hp : s.phase = .frozen)
    (hl : s.inLen.toNat ≤ s.params.inMax) (hd : encodeText s.fwd s.pad s.operand = some d)
    (hfit : d.length ≤ s.params.outMax) : exec .encode s = .next (completeOk (s.storeOut d)) := by
  refine ((inPhase_eq hp (by decide) _).trans (withOperand_fits hl _)).trans ?_
  rw [hd]
  exact emitResult_fits hfit

/-- The text of an operand that fits IN fits OUT (R5, R131). -/
theorem encodeText_operand_fits {s : State} {d : List Byte} (hp : s.params.Valid)
    (hl : s.inLen.toNat ≤ s.params.inMax) (hd : encodeText s.fwd s.pad s.operand = some d) :
    d.length ≤ s.params.outMax :=
  (encodeText_length_le hd).trans (maxEncodedLength_le_outMax hp ((operand_length s).trans_le hl))

/-- Settles O19: a total FWD table gives every operand a text, which ENCODE stores in OUT. -/
theorem encodeWritesSymbols : Obligations.EncodeWritesSymbols := by
  refine ⟨decode_encode .encode, fun s => ⟨fun hp => inPhase_ne (by simp [hp]) (by simp [hp]) _,
    exec_encode_tooLong, fun hp ok hv hl => ?_⟩⟩
  obtain ⟨d, hd⟩ := Option.ne_none_iff_exists'.mp (encodeText_ne_none ok.fwdTotal s.pad s.operand)
  have hfit := encodeText_operand_fits hv hl hd
  have hlen : (completeOk (s.storeOut d)).outLen.toNat = d.length := outLen_storeOut hv hfit
  have hbyte {i : Nat} (hi : i < d.length) : (completeOk (s.storeOut d)).outByte i = d[i] :=
    outByte_storeOut (s := s) hi
  have htext := encodeText_length hd
  have hget {k j : Nat} := encodeText_getElem hd (k := k) (j := j)
  simp only [operand_length, chunkWord_operand] at htext hget
  refine ⟨_, exec_encode_stores hp hl hd hfit, rfl, rfl, hlen.trans htext, fun k hk => ⟨fun j hj => ?_,
    fun hpad j hge hj => ?_⟩, fun a ha => readByte_storeOut_outside (hlen ▸ ha), rfl⟩
  · obtain ⟨hlt, hsym, -⟩ := hget hk (.inl hj)
    rw [hbyte hlt]
    exact hsym hj
  · obtain ⟨hlt, -, hfill⟩ := hget hk (.inr ⟨hpad, hj⟩)
    rw [hbyte hlt]
    exact hfill hge

/-! ## ENCODE repeated -/

/-- All that ENCODE can answer in FROZEN: ERR_LENGTH, or the text of its operand in OUT. -/
theorem exec_encode_frozen {s t : State} (hp : s.phase = .frozen) (h : exec .encode s = .next t) :
    (s.params.inMax < s.inLen.toNat ∧ t = raiseError .length s) ∨
    (s.inLen.toNat ≤ s.params.inMax ∧ ∃ d, encodeText s.fwd s.pad s.operand = some d ∧
      d.length ≤ s.params.outMax ∧ t = completeOk (s.storeOut d)) := by
  rcases execEncode_cases s with ⟨hf, -⟩ | ⟨⟨-, hne⟩, -⟩ | ⟨-, -, hl, e⟩ | ⟨-, -, hl, ⟨d, hd, e⟩ | ⟨-, e⟩⟩
  · simp [hp] at hf
  · exact absurd hp hne
  · exact .inl ⟨hl, Host.Outcome.next.inj (h.symm.trans e)⟩
  · exact .inr ⟨hl, d, hd, emitResult_next (e.symm.trans h)⟩
  · exact nomatch h.symm.trans e

/-- Storing the same result once more changes no byte of OUT. -/
theorem outByte_storeOut_storeOut (s : State) (d : List Byte) (i : Nat) :
    ((s.storeOut d).storeOut d).outByte i = (s.storeOut d).outByte i := by
  by_cases hi : i < d.length
  · rw [outByte_storeOut hi, outByte_storeOut hi]
  · exact readByte_storeOut_outside (.inr (by omega))

/-- A command leaves IN as it is (R59). -/
theorem exec_inByte {i : Instr} {s t : State} (hp : s.params.Valid) (h : exec i s = .next t) {k : Nat}
    (hk : k < s.params.inMax) : t.inByte k = s.inByte k := by
  have ⟨_, hin, _⟩ := hp
  have := inBase_eq
  have := outBase_eq
  exact exec_readByte_outside hp h (.inl (by omega))

/-- Settles O21: after ERR_LENGTH ENCODE fails alike, and after a text IN, FWD and PAD give the same one. -/
theorem encodeIsRepeatable : Obligations.EncodeIsRepeatable := by
  intro s t hv hp h
  have hin (k : Nat) (hk : k < s.params.inMax) : t.inByte k = s.inByte k := exec_inByte hv h hk
  rcases exec_encode_frozen hp h with ⟨hl, rfl⟩ | ⟨hl, d, hd, hfit, rfl⟩
  · exact ⟨rfl, rfl, rfl, rfl, rfl, rfl, rfl, hin, _, exec_encode_tooLong hp hl, rfl, fun _ => rfl⟩
  · have hoperand : (completeOk (s.storeOut d)).operand = s.operand :=
      operand_congr rfl fun k hk => hin k (hk.trans_le hl)
    have hagain := exec_encode_stores (s := completeOk (s.storeOut d)) hp hl (hoperand.symm ▸ hd) hfit
    exact ⟨rfl, rfl, rfl, rfl, rfl, rfl, rfl, hin, _, hagain, rfl, outByte_storeOut_storeOut s d⟩

end Sys2Proof.Machine

/-! PROOFS. DECODE (42_decode.md): the scan for the padding, the bytes of the result, which texts are rejected, aliases,
and the round trip with ENCODE. -/

namespace Sys2Proof.Machine

/-! ## The scan for the padding -/

/-- The scan splits a list into at most `k` padding bytes and the rest, and stops before `k` only at a byte that is
no padding or at the end (R151). -/
theorem dropPad_split (k : Nat) (l : List Byte) : ∃ m ≤ k, l = List.replicate m padChar ++ dropPad k l ∧
    (m = k ∨ (dropPad k l).head? ≠ some padChar) := by
  induction k generalizing l with
  | zero => exact ⟨0, le_rfl, rfl, .inl rfl⟩
  | succ k ih =>
    cases l with
    | nil => exact ⟨0, Nat.zero_le _, rfl, .inr nofun⟩
    | cons b l =>
      rw [dropPad]
      split
      · next hb =>
        obtain ⟨m, hm, hsplit, hstop⟩ := ih l
        refine ⟨m + 1, Nat.succ_le_succ hm, ?_, hstop.imp_left (congrArg Nat.succ)⟩
        rw [List.replicate_succ, List.cons_append, ← hsplit, hb]
      · next hb => exact ⟨0, Nat.zero_le _, rfl, .inr (by simpa using hb)⟩

/-- A text is its counted symbols and at most 6 padding bytes, fewer only where the last counted symbol is no
padding (R151). -/
theorem unpadded_split (text : List Byte) : ∃ kept : List Byte, ∃ m ≤ 6,
    text = kept ++ List.replicate m padChar ∧ unpadded text = kept.length ∧
      (m = 6 ∨ kept.getLast? ≠ some padChar) := by
  obtain ⟨m, hm, hsplit, hstop⟩ := dropPad_split 6 text.reverse
  refine ⟨(dropPad 6 text.reverse).reverse, m, hm, ?_, by rw [unpadded, List.length_reverse],
    by rwa [List.getLast?_reverse]⟩
  have hrev := congrArg List.reverse hsplit
  rwa [List.reverse_reverse, List.reverse_append, List.reverse_replicate] at hrev

/-- Settles O22: the padding bytes are the last ones of the text. -/
theorem unpaddedScan : Obligations.UnpaddedScan := by
  intro text
  obtain ⟨kept, m, hm, htext, hu, hstop⟩ := unpadded_split text
  have hlen : text.length = kept.length + m := by simp [htext]
  rw [hu]
  refine ⟨by omega, by omega, fun i hi hi' => ?_, ?_⟩
  · have him : i - kept.length < m := by omega
    simp [htext, List.getElem?_append_right hi, him, padChar]
  · rcases hstop with hm6 | hlast
    · exact .inl (by omega)
    · rcases Nat.eq_zero_or_pos kept.length with h0 | hpos
      · exact .inr (.inl h0)
      · refine .inr (.inr fun hpad => hlast ?_)
        have hlt : kept.length - 1 < kept.length := by omega
        simpa [htext, List.getLast?_eq_getElem?, List.getElem?_append_left hlt, List.getElem?_eq_getElem hlt,
          padChar] using hpad

/-- The rule of R151 gives one count: between two counts every byte would be padding, so the scan would not stop at
the greater one. -/
theorem UnpaddedCount.le {text : Nat → Byte} {n u v : Nat} (hu : UnpaddedCount text n u)
    (hv : UnpaddedCount text n v) : v ≤ u := by
  obtain ⟨-, hu6, hupad, -⟩ := hu
  obtain ⟨hvn, -, -, hvstop⟩ := hv
  by_contra hlt
  rcases hvstop with h | h | h
  · omega
  · omega
  · exact h (hupad (v - 1) (by omega) (by omega))

/-- A count that meets R151 is the one the scan finds. -/
theorem unpadded_eq {text : List Byte} {u : Nat} (h : UnpaddedCount (fun i => text.getD i 0) text.length u) :
    unpadded text = u :=
  le_antisymm (h.le (unpaddedScan text)) ((unpaddedScan text).le h)

/-- The count reads the bytes of the text alone. -/
theorem UnpaddedCount.congr {f g : Nat → Byte} {n u : Nat} (h : UnpaddedCount f n u)
    (hfg : ∀ i, i < n → f i = g i) : UnpaddedCount g n u := by
  obtain ⟨hun, hu6, hpad, hstop⟩ := h
  refine ⟨hun, hu6, fun i hi hi' => hfg i hi' ▸ hpad i hi hi', ?_⟩
  rcases hstop with h6 | h0 | hne
  · exact .inl h6
  · exact .inr (.inl h0)
  · by_cases h0 : u = 0
    · exact .inr (.inl h0)
    · exact .inr (.inr (hfg (u - 1) (by omega) ▸ hne))

/-! ## The bytes of the result -/

/-- The value of an accepted byte (R153). -/
theorem Rev.lookup_eq_some_iff {r : Rev} {b : Byte} {v : Value} :
    r.lookup b = some v ↔ ∃ c, cid b = some c ∧ r.get c = some v :=
  Option.bind_eq_some_iff

/-- A byte without a value is one that R153 does not accept. -/
theorem Rev.lookup_eq_none_iff {r : Rev} {b : Byte} : r.lookup b = none ↔ ¬ r.Accepts b := by
  simp only [Option.eq_none_iff_forall_ne_some, Ne, Rev.lookup_eq_some_iff, Rev.Accepts]
  exact ⟨fun h ⟨c, v, hc⟩ => h v ⟨c, hc⟩, fun h v ⟨c, hc⟩ => h ⟨c, v, hc⟩⟩

/-- The codec decodes a text whose bytes all have values (R150 to R155). -/
theorem decodeText_of_mapM {r : Rev} {text : List Byte} {vs : List Value} (h : text.mapM r.lookup = some vs) :
    decodeText r text = some (((chunksOf 8 vs).map unpack).flatten.take (decodedLength text)) := by
  rw [decodeText, h, Option.map_some]

/-- Five bytes a chunk (R154). -/
theorem length_flatten_unpack (cs : List (List Value)) : (cs.map unpack).flatten.length = 5 * cs.length := by
  induction cs with
  | nil => rfl
  | cons c cs ih =>
    rw [List.map_cons, List.flatten_cons, List.length_append, unpack_length, ih, List.length_cons]
    omega

/-- The chunks have all the bytes that R152 takes. -/
theorem decodedLength_le (text : List Byte) : decodedLength text ≤ 5 * ((text.length + 7) / 8) := by
  have hu := unpadded_le text
  unfold decodedLength
  omega

/-- The length of a decoded result (R152). -/
theorem decodeText_length {r : Rev} {text d : List Byte} (h : decodeText r text = some d) :
    d.length = decodedLength text := by
  simp only [decodeText, Option.map_eq_some_iff] at h
  obtain ⟨vs, hvs, rfl⟩ := h
  have hlen : vs.length = text.length := (mapM_getElem hvs).1
  have hle := decodedLength_le text
  rw [List.length_take, length_flatten_unpack, chunksOf_length, hlen]
  omega

/-- The word of chunk `k` of a list of values, whose missing values are zero (R154). -/
theorem valuesWord_chunk {vs : List Value} {v : Nat → Value} (h : ∀ i, vs.getD i 0 = v i) (k : Nat) :
    valuesWord ((vs.drop (8 * k)).take 8) = chunkOfValues v k := by
  have hget (j : Nat) (hj : j < 8) : ((vs.drop (8 * k)).take 8).getD j 0 = v (8 * k + j) := by
    rw [List.getD_eq_getElem?_getD, List.getElem?_take_of_lt hj, List.getElem?_drop, ← h,
      List.getD_eq_getElem?_getD]
  simp (disch := decide) only [valuesWord, hget, chunkOfValues, Nat.add_zero]

/-- Byte `q` of the unpacked chunks of a list of values (R154). -/
theorem getElem?_flatten_unpack {vs : List Value} {v : Nat → Value} (h : ∀ i, vs.getD i 0 = v i) {q : Nat}
    (hq : q < 5 * ((vs.length + 7) / 8)) :
    ((chunksOf 8 vs).map unpack).flatten[q]? =
      some ((chunkOfValues v (q / 5)).extractLsb' (32 - 8 * (q % 5)) 8) := by
  have hk : q / 5 < ((chunksOf 8 vs).map unpack).length := by
    rw [List.length_map, chunksOf_length]
    omega
  have hbyte := getElem?_flatten_blocks 5 ((chunksOf 8 vs).map unpack) (by simp) (q / 5) (q % 5) hk
    (by simpa using Nat.mod_lt q (by decide))
  rw [Nat.div_add_mod] at hbyte
  simp only [hbyte, List.getElem_map, unpack_getElem, chunksOf_getElem, valuesWord_chunk h]

/-- A text whose byte `i` has the value `v i` decodes to the bytes of the chunks of the values (R150 to R155). -/
theorem decodeText_of_values {r : Rev} {text : List Byte} {v : Nat → Value}
    (hv : ∀ i (hi : i < text.length), r.lookup text[i] = some (v i)) (hz : ∀ i, text.length ≤ i → v i = 0) :
    ∃ d, decodeText r text = some d ∧ ∀ q (hq : q < d.length),
      d[q] = (chunkOfValues v (q / 5)).extractLsb' (32 - 8 * (q % 5)) 8 := by
  have hsome : text.mapM r.lookup ≠ none := by
    rw [Ne, mapM_eq_none]
    rintro ⟨b, hb, hnone⟩
    obtain ⟨i, hi, rfl⟩ := List.getElem_of_mem hb
    exact nomatch hnone.symm.trans (hv i hi)
  obtain ⟨vs, hvs⟩ := Option.ne_none_iff_exists'.mp hsome
  obtain ⟨hlen, hget⟩ := mapM_getElem hvs
  have hvalue (i : Nat) : vs.getD i 0 = v i := by
    by_cases hi : i < text.length
    · rw [List.getD_eq_getElem _ _ (hlen ▸ hi)]
      exact Option.some.inj ((hget i hi (hlen ▸ hi)).symm.trans (hv i hi))
    · rw [hz i (by omega), List.getD_eq_default _ _ (by omega)]
  refine ⟨_, decodeText_of_mapM hvs, fun q hq => ?_⟩
  rw [List.length_take, length_flatten_unpack, chunksOf_length] at hq
  rw [List.getElem_take]
  exact (List.getElem_eq_iff _).mpr (getElem?_flatten_unpack hvalue (by omega))

/-- Settles O24: the lookup of a byte fails exactly when R153 does not accept it, and an accepted byte is a Symbol. -/
theorem decodeRejectsBadBytes : Obligations.DecodeRejectsBadBytes := by
  refine fun r text => ⟨?_, ?_⟩
  · simp only [decodeText, Option.map_eq_none_iff, mapM_eq_none, Rev.lookup_eq_none_iff]
  · rintro b ⟨c, v, hc, -⟩
    have hb := cid_eq_some_iff.mp hc
    have hlt := c.isLt
    omega

/-- Settles O26: the bounds follow from the length and `unpadded_le`. -/
theorem decodedLengthBound : Obligations.DecodedLengthBound := by
  intro r text d h
  have hlen : d.length = unpadded text * 5 / 8 := decodeText_length h
  have hu := unpadded_le text
  exact ⟨hlen, by omega, by omega, by omega⟩

/-! ## The command -/

/-- DECODE stores the bytes of its text (R150). -/
theorem exec_decode_stores {s : State} {d : List Byte} (hp : s.phase = .frozen)
    (hl : s.inLen.toNat ≤ s.params.inMax) (hd : decodeText s.rev s.operand = some d)
    (hfit : d.length ≤ s.params.outMax) : exec .decode s = .next (completeOk (s.storeOut d)) := by
  refine ((inPhase_eq hp (by decide) _).trans (withOperand_fits hl _)).trans ?_
  rw [hd]
  exact emitResult_fits hfit

/-- DECODE raises ERR_DECODE on a text with a byte that R153 does not accept (R150). -/
theorem exec_decode_rejects {s : State} (hp : s.phase = .frozen) (hl : s.inLen.toNat ≤ s.params.inMax) {i : Nat}
    (hi : i < s.inLen.toNat) (hbad : ¬ s.rev.Accepts (s.inByte i)) :
    exec .decode s = .next (raiseError .decode s) := by
  have hmem : s.inByte i ∈ s.operand := List.mem_of_getElem? (operand_getElem? hi)
  have hnone : decodeText s.rev s.operand = none := (decodeRejectsBadBytes _ _).1.mpr ⟨_, hmem, hbad⟩
  refine ((inPhase_eq hp (by decide) _).trans (withOperand_fits hl _)).trans ?_
  rw [hnone]

/-- No more bytes than an operand that fits IN has fit OUT (R5). -/
theorem length_le_outMax_of_le_operand {s : State} (hv : s.params.Valid) (hl : s.inLen.toNat ≤ s.params.inMax)
    {d : List Byte} (hd : d.length ≤ s.operand.length) : d.length ≤ s.params.outMax := by
  rw [operand_length] at hd
  exact (hd.trans (le_maxEncodedLength _)).trans (maxEncodedLength_le_outMax hv hl)

/-- Settles O23: the lookups of the operand's bytes are the given values, and the scan of the operand finds the given
count. -/
theorem decodeUnpacksValues : Obligations.DecodeUnpacksValues := by
  refine ⟨decode_encode .decode, fun s => ⟨fun hp => inPhase_ne (by simp [hp]) (by simp [hp]) _,
    fun hp hl => (inPhase_eq hp (by decide) _).trans (withOperand_tooLong hl _),
    fun hp hl ⟨i, hi, hbad⟩ => exec_decode_rejects hp hl hi hbad, fun hp hv hl v u hvalue hzero hcount => ?_⟩⟩
  obtain ⟨d, hd, hbytes⟩ := decodeText_of_values (r := s.rev) (text := s.operand) (v := v)
    (fun i hi => by
      rw [operand_getElem]
      exact Rev.lookup_eq_some_iff.mpr (hvalue i (by simpa using hi)))
    (fun i hi => hzero i (by simpa using hi))
  have hfit := length_le_outMax_of_le_operand hv hl (decodeText_length_le hd)
  have hu : unpadded s.operand = u := by
    refine unpadded_eq ?_
    rw [operand_length]
    exact hcount.congr fun i hi => by rw [List.getD_eq_getElem?_getD, operand_getElem? hi, Option.getD_some]
  have hlen : d.length = u * 5 / 8 := hu ▸ decodeText_length hd
  have hout : (completeOk (s.storeOut d)).outLen.toNat = d.length := outLen_storeOut hv hfit
  refine ⟨_, exec_decode_stores hp hl hd hfit, rfl, rfl, hout.trans hlen, fun q hq => ?_,
    fun a ha => readByte_storeOut_outside (hout ▸ ha), rfl⟩
  rw [← hlen] at hq
  exact (outByte_storeOut (s := s) hq).trans (hbytes q hq)

/-- DECODE leaves the slot as it is, however it ends (R161). -/
theorem exec_decode_sameSlot {s t : State} (h : exec .decode s = .next t) : SameSlot t s := by
  have key {u : State} (hu : SameSlot u s) (e : execDecode s = .next u) : SameSlot t s :=
    Host.Outcome.next.inj (e.symm.trans h) ▸ hu
  rcases execDecode_cases s with ⟨-, e⟩ | ⟨-, e⟩ | ⟨-, -, -, e⟩ | ⟨-, -, -, ⟨d, -, e⟩ | ⟨-, e⟩⟩
  · exact key (by constructor <;> rfl) e
  · exact key (by constructor <;> rfl) e
  · exact key (by constructor <;> rfl) e
  · obtain ⟨-, rfl⟩ := emitResult_next (e.symm.trans h)
    constructor <;> rfl
  · exact key (by constructor <;> rfl) e

/-- Settles O25: neither kind of bad byte is accepted, and DECODE writes nothing but OUT, OUT_LEN, ERR and BUSY. -/
theorem decodeRejectsAndLeavesSlot : Obligations.DecodeRejectsAndLeavesSlot := by
  constructor
  · rintro s hp hl ⟨i, hi, hbad⟩
    refine exec_decode_rejects hp hl hi fun haccepts => ?_
    rcases hbad with hrange | ⟨c, hc, hunmapped⟩
    · exact hrange ((decodeRejectsBadBytes s.rev []).2 _ haccepts)
    · obtain ⟨c', v, hc', hv⟩ := haccepts
      have hcid : cid (s.inByte i) = some c := cid_eq_some_iff.mpr (by omega)
      obtain rfl : c = c' := Option.some.inj (hcid.symm.trans hc')
      exact nomatch hunmapped.symm.trans hv
  · intro s t hv h
    have hslot := exec_decode_sameSlot h
    exact ⟨hslot.fwd, hslot.rev, hslot.pad, hslot.name, hslot.nameSet, hslot.phase, exec_inLen h,
      fun i hi => exec_inByte hv h hi⟩

/-! ## Aliases -/

/-- Lists whose bytes have the same lookups, position by position, have the same lookups as a whole. -/
theorem mapM_congr_forall₂ {α β : Type} {f : α → Option β} {x y : List α}
    (h : List.Forall₂ (fun a b => f a = f b) x y) : x.mapM f = y.mapM f := by
  induction h with
  | nil => rfl
  | cons hab _ ih => rw [List.mapM_cons, List.mapM_cons, hab, ih]

/-- The scan leaves as many bytes of two lists that have their `'='` at the same positions. -/
theorem dropPad_length_congr {x y : List Byte}
    (h : List.Forall₂ (fun a b => a = padChar ↔ b = padChar) x y) (k : Nat) :
    (dropPad k x).length = (dropPad k y).length := by
  induction h generalizing k with
  | nil => rfl
  | @cons a b x y hab hxy ih =>
    cases k with
    | zero => simp [dropPad, hxy.length_eq]
    | succ k =>
      rw [dropPad, dropPad]
      by_cases ha : a = padChar
      · rw [if_pos ha, if_pos (hab.mp ha), ih]
      · rw [if_neg ha, if_neg (mt hab.mpr ha), List.length_cons, List.length_cons, hxy.length_eq]

/-- The unpadded count of a text depends on where it has `'='` alone (R151). -/
theorem unpadded_congr {x y : List Byte} (h : List.Forall₂ (fun a b => a = padChar ↔ b = padChar) x y) :
    unpadded x = unpadded y :=
  dropPad_length_congr (List.rel_reverse h) 6

/-- Settles O27: both symbols have the same lookup, and neither is one that the scan drops. -/
theorem aliasEquivalence : Obligations.AliasEquivalence := by
  intro r b1 b2 c1 c2 v hc1 hc2 hv1 hv2 hb1 hb2 x y hxy
  have hlookup : x.mapM r.lookup = y.mapM r.lookup := by
    refine mapM_congr_forall₂ (hxy.imp ?_)
    rintro a b (rfl | ⟨rfl, rfl⟩)
    · rfl
    · exact (Rev.lookup_eq_some_iff.mpr ⟨c1, hc1, hv1⟩).trans (Rev.lookup_eq_some_iff.mpr ⟨c2, hc2, hv2⟩).symm
  have hcount : unpadded x = unpadded y := by
    refine unpadded_congr (hxy.imp ?_)
    rintro a b (rfl | ⟨rfl, rfl⟩)
    · rfl
    · exact iff_of_false hb1 hb2
  simp only [decodeText, decodedLength, hlookup, hcount]

/-! ## The values of an encoded text -/

/-- The number of symbols of `n` bytes that are no fillers (R131, R133). -/
def symbolCount (n : Nat) : Nat := 8 * (n / 5) + genuine (n % 5)

/-- The 5-bit value at position `i` of the data: group `i % 8` of chunk `i / 8` (R132). -/
def valueAt (data : List Byte) (i : Nat) : Value := groupOf (chunkWord ((data.drop (5 * (i / 8))).take 5)) (i % 8)

theorem valueAt_group (data : List Byte) (k : Nat) {j : Nat} (hj : j < 8) :
    valueAt data (8 * k + j) = groupOf (chunkWord ((data.drop (5 * k)).take 5)) j := by
  rw [valueAt, show (8 * k + j) / 8 = k by omega, show (8 * k + j) % 8 = j by omega]

/-- Position `j` of chunk `k` is one of the symbols exactly when its group is genuine (R133). -/
theorem lt_symbolCount_iff {n k j : Nat} (hj : j < 8) :
    8 * k + j < symbolCount n ↔ j < genuine (min 5 (n - 5 * k)) := by
  unfold symbolCount genuine
  omega

/-- The symbols of `n` bytes hold `n` whole bytes (R152). -/
theorem symbolCount_bytes (n : Nat) : symbolCount n * 5 / 8 = n := by
  unfold symbolCount genuine
  omega

/-- The bits of a chunk's word below its bytes are 0 (R132). -/
theorem chunkWord_getLsbD_low {c : List Byte} {i : Nat} (h : i + 8 * c.length < 40) :
    (chunkWord c).getLsbD i = false := by
  have hbyte := congrArg (BitVec.getLsbD · (i % 8)) (chunkWord_byte c (4 - i / 8) (by omega))
  rw [List.getD_eq_default _ _ (by omega)] at hbyte
  simpa [Nat.mod_lt, show 32 - 8 * (4 - i / 8) + i % 8 = i by omega] using hbyte

/-- A group that is not genuine is 0 (R132, R133). -/
theorem groupOf_eq_zero {c : List Byte} {j : Nat} (hj : j < 8) (h : genuine c.length ≤ j) :
    groupOf (chunkWord c) j = 0 := by
  unfold genuine at h
  refine BitVec.eq_of_getLsbD_eq fun i hi => ?_
  rw [groupOf, BitVec.getLsbD_extractLsb', chunkWord_getLsbD_low (by omega)]
  simp

/-- The values beyond the symbols are 0. -/
theorem valueAt_eq_zero {data : List Byte} {i : Nat} (h : symbolCount data.length ≤ i) : valueAt data i = 0 := by
  have hj : i % 8 < 8 := Nat.mod_lt i (by decide)
  refine groupOf_eq_zero hj ?_
  rw [length_chunk]
  refine not_lt.mp fun hlt => ?_
  have := (lt_symbolCount_iff hj).mpr hlt
  omega

/-- The values of chunk `k` of the data make up its word (R132, R154). -/
theorem chunkOfValues_valueAt (data : List Byte) (k : Nat) :
    chunkOfValues (valueAt data) k = chunkWord ((data.drop (5 * k)).take 5) := by
  have hfirst : valueAt data (8 * k) = _ := valueAt_group data k (j := 0) (by decide)
  simp (disch := decide) only [chunkOfValues, hfirst, valueAt_group]
  exact groups_reassemble _

/-- Byte `q` of the data stands in the word of chunk `q / 5` (R132). -/
theorem chunkWord_data_byte {data : List Byte} {q : Nat} (hq : q < data.length) :
    (chunkWord ((data.drop (5 * (q / 5))).take 5)).extractLsb' (32 - 8 * (q % 5)) 8 = data[q] := by
  have hlt : q % 5 < 5 := Nat.mod_lt q (by decide)
  rw [chunkWord_byte _ _ hlt, List.getD_eq_getElem?_getD, List.getElem?_take_of_lt hlt, List.getElem?_drop,
    Nat.div_add_mod, List.getElem?_eq_getElem hq, Option.getD_some]

/-- Without padding the text is its symbols alone (R131). -/
theorem encodeText_length_noPad {f : Fwd} {data text : List Byte} (h : encodeText f false data = some text) :
    text.length = symbolCount data.length :=
  encodeText_length h

/-- With or without padding, a text has its symbols and at most 6 fillers (R131, R134). -/
theorem encodeText_fillers {f : Fwd} {pad : Bool} {data text : List Byte} (h : encodeText f pad data = some text) :
    symbolCount data.length ≤ text.length ∧ text.length - symbolCount data.length ≤ 6 := by
  cases pad with
  | false =>
    rw [encodeText_length_noPad h]
    omega
  | true =>
    have hlen := encodeText_length h
    rw [if_pos rfl] at hlen
    unfold symbolCount genuine
    split at hlen <;> omega

/-- Byte `i` of an encoded text is the canonical symbol of value `i` of the data or, with padding, a filler (R130,
R134). -/
theorem encodeText_symbols {f : Fwd} {pad : Bool} {data text : List Byte} (h : encodeText f pad data = some text)
    {i : Nat} (hi : i < text.length) :
    (i < symbolCount data.length → f.get (valueAt data i) = some text[i]) ∧
      (symbolCount data.length ≤ i → pad = true ∧ text[i] = padChar) := by
  obtain ⟨k, j, hj, rfl⟩ : ∃ k j, j < 8 ∧ i = 8 * k + j :=
    ⟨i / 8, i % 8, Nat.mod_lt i (by decide), (Nat.div_add_mod i 8).symm⟩
  have hpad : 8 * k + j < symbolCount data.length ∨ pad = true := by
    cases pad with
    | false => exact .inl (encodeText_length_noPad h ▸ hi)
    | true => exact .inr rfl
  have hk : k < (data.length + 4) / 5 := by
    have hle := encodeText_length_le h
    unfold maxEncodedLength at hle
    omega
  rw [← not_lt, lt_symbolCount_iff hj, valueAt_group _ _ hj, not_lt]
  rw [lt_symbolCount_iff hj] at hpad
  obtain ⟨_, hsym, hfill⟩ := encodeText_getElem h hk (hpad.imp_right fun hp => ⟨hp, hj⟩)
  exact ⟨hsym, fun hge => ⟨hpad.resolve_left hge.not_gt, hfill hge⟩⟩

/-! ## The round trip -/

/-- Under H1 each byte of an encoded text has the value it was made from; with padding a filler has the value 0
(R36, R159). -/
theorem lookup_encodeText {s : State} (ok : s.SlotOk) (hcanonical : s.CanonicalDecodes) {data text : List Byte}
    (h : encodeText s.fwd s.pad data = some text) {i : Nat} (hi : i < text.length) :
    s.rev.lookup text[i] = some (valueAt data i) := by
  obtain ⟨hsym, hfill⟩ := encodeText_symbols h hi
  rw [Rev.lookup_eq_some_iff]
  rcases lt_or_ge i (symbolCount data.length) with hlt | hge
  · exact hcanonical _ _ (hsym hlt)
  · obtain ⟨hpad, hchar⟩ := hfill hge
    rw [hchar, valueAt_eq_zero hge]
    exact ⟨padCid, cid_padChar, ok.padZero hpad⟩

/-- Under H2 the scan drops the fillers of an encoded text and no symbol (R151, R159). -/
theorem unpadded_encodeText {s : State} (hnotPad : s.PadNotCanonical) {data text : List Byte}
    (h : encodeText s.fwd s.pad data = some text) : unpadded text = symbolCount data.length := by
  obtain ⟨hle, hfillers⟩ := encodeText_fillers h
  have hget {i : Nat} (hi : i < text.length) : text.getD i 0 = text[i] := List.getD_eq_getElem _ _ hi
  refine unpadded_eq ⟨hle, hfillers, fun i hge hi => ?_, ?_⟩
  · exact (hget hi).trans ((encodeText_symbols h hi).2 hge).2
  · rcases Nat.eq_zero_or_pos (symbolCount data.length) with h0 | hpos
    · exact .inr (.inl h0)
    · refine .inr (.inr fun hlast => ?_)
      have hi : symbolCount data.length - 1 < text.length := by omega
      have hsym := (encodeText_symbols h hi).1 (by omega)
      exact hnotPad _ (hsym.trans (congrArg some ((hget hi).symm.trans hlast)))

/-- The values of the text are the ones of the data, and the scan leaves the symbols that hold its bytes. -/
theorem decodeText_encodeText {s : State} (ok : s.SlotOk) (hcanonical : s.CanonicalDecodes)
    (hnotPad : s.PadNotCanonical) {data text : List Byte} (h : encodeText s.fwd s.pad data = some text) :
    decodeText s.rev text = some data := by
  have hle := (encodeText_fillers h).1
  obtain ⟨d, hd, hbytes⟩ := decodeText_of_values (fun _ hi => lookup_encodeText ok hcanonical h hi)
    (fun _ hi => valueAt_eq_zero (hle.trans hi))
  have hlen : d.length = data.length := by
    rw [decodeText_length hd, decodedLength, unpadded_encodeText hnotPad h, symbolCount_bytes]
  rw [hd]
  refine congrArg some (List.ext_getElem hlen fun q hq hq' => ?_)
  rw [hbytes q hq, chunkOfValues_valueAt, chunkWord_data_byte hq']

/-- Settles O28: a total FWD table gives the text, and its decoding is the data. -/
theorem roundTrip : Obligations.RoundTrip := by
  intro s data ok hcanonical hnotPad
  obtain ⟨text, htext⟩ := Option.ne_none_iff_exists'.mp (encodeText_ne_none ok.fwdTotal s.pad data)
  exact ⟨text, htext, decodeText_encodeText ok hcanonical hnotPad htext⟩

/-- Settles O29: the text in OUT is the operand of DECODE, and its decoding is the operand of ENCODE, which fits
OUT. -/
theorem roundTripOnTheBlock : Obligations.RoundTripOnTheBlock := by
  intro s t u hv ok hcanonical hnotPad hp hl h hup huparams hurev hulen hufit hin
  rcases exec_encode_frozen hp h with ⟨htooLong, -⟩ | ⟨-, text, htext, hfit, rfl⟩
  · omega
  · have hout : (completeOk (s.storeOut text)).outLen.toNat = text.length := outLen_storeOut hv hfit
    have hoperand : u.operand = text := by
      refine List.ext_getElem (by rw [operand_length, hulen, hout]) fun i hi hi' => ?_
      rw [operand_getElem, hin i (hout ▸ hi')]
      exact outByte_storeOut (s := s) hi'
    have hd : decodeText u.rev u.operand = some s.operand := by
      rw [hurev, hoperand]
      exact decodeText_encodeText ok hcanonical hnotPad htext
    have hdfit : s.operand.length ≤ u.params.outMax := huparams ▸ length_le_outMax_of_le_operand hv hl le_rfl
    refine ⟨_, exec_decode_stores hup hufit hd hdfit, rfl, by simp, fun i hi => ?_⟩
    have hi' : i < s.operand.length := by rwa [operand_length]
    exact (outByte_storeOut (s := u) hi').trans (operand_getElem s i hi')

end Sys2Proof.Machine

/-! PROOFS. The accessors (43_accessors.md): the result of each fits OUT, and each stores it there. -/

namespace Sys2Proof.Machine

/-- As many bytes as fit IN fit OUT (R5). -/
theorem le_outMax_of_le_inMax {p : Params} (hv : p.Valid) {n : Nat} (hn : n ≤ p.inMax) : n ≤ p.outMax :=
  (le_maxEncodedLength n).trans (maxEncodedLength_le_outMax hv hn)

/-! ## GET_NAME -/

/-- The shown name fits OUT when NAME fits IN, whatever else the state holds (R5, R25). -/
theorem shownName_length_le_outMax {s : State} (hv : s.params.Valid) (hname : s.name.length ≤ s.params.inMax) :
    s.shownName.length ≤ s.params.outMax := by
  unfold State.shownName
  split
  · exact le_outMax_of_le_inMax hv hname
  · obtain ⟨-, -, -, -, hplaceholder⟩ := hv
    exact hplaceholder

/-- GET_NAME stores the shown name (R180). -/
theorem exec_getName_stores {s : State} (hp : s.phase = .frozen) (hfit : s.shownName.length ≤ s.params.outMax) :
    exec .getName s = .next (completeOk (s.storeOut s.shownName)) :=
  (inPhase_eq hp (by decide) _).trans (emitResult_fits hfit)

/-- Settles O30: the shown name fits OUT, so OUT holds all its bytes and OUT_LEN its length. -/
theorem getNameReturnsName : Obligations.GetNameReturnsName := by
  refine ⟨decode_encode .getName, fun s => ⟨fun hp => inPhase_ne (by simp [hp]) (by simp [hp]) _, ?_⟩⟩
  rintro hp hv hname _ rfl
  have hfit := shownName_length_le_outMax hv hname
  refine ⟨_, exec_getName_stores hp hfit, rfl, rfl, outLen_storeOut hv hfit, fun i hi => ?_,
    fun a ha => readByte_storeOut_outside ha, rfl⟩
  have hbyte : (completeOk (s.storeOut s.shownName)).outByte i = s.shownName[i] := outByte_storeOut hi
  rw [hbyte]
  exact List.getElem?_eq_getElem hi

/-! ## GET_PADDING -/

/-- The flag as a byte (R181). -/
theorem paddingByte_eq (pad : Bool) : paddingByte pad = if pad then 0x01 else 0x00 := by
  cases pad <;> rfl

/-- GET_PADDING stores the flag's byte; OUT has room for one byte (R5, R181). -/
theorem exec_getPadding_stores {s : State} (hp : s.phase = .frozen) (hv : s.params.Valid) :
    exec .getPadding s = .next (completeOk (s.storeOut [paddingByte s.pad])) := by
  have hpos : 1 ≤ s.params.inMax := hv.1
  exact (inPhase_eq hp (by decide) _).trans (emitResult_fits (le_outMax_of_le_inMax hv hpos))

/-- Settles O31: the result is the one byte of PAD. -/
theorem getPaddingReturnsFlag : Obligations.GetPaddingReturnsFlag := by
  refine ⟨decode_encode .getPadding, fun s => ⟨fun hp => inPhase_ne (by simp [hp]) (by simp [hp]) _,
    fun hp hv => ⟨_, exec_getPadding_stores hp hv, rfl, rfl, rfl, ?_,
      fun a ha => readByte_storeOut_outside ha, rfl⟩⟩⟩
  have hbyte : (s.storeOut [paddingByte s.pad]).outByte 0 = paddingByte s.pad := outByte_storeOut Nat.one_pos
  exact hbyte.trans (paddingByte_eq s.pad)

end Sys2Proof.Machine

/-! PROOFS. Errors, phases and FAULT (60_exceptions.md): what is checked before a command's own rule, in which order
(R204), and that FAULT lasts until reset. -/

namespace Sys2Proof.Machine

/-! ## The end of a command -/

/-- A command that goes on has left the engine: BUSY is 0 (R201). -/
theorem exec_busy {i : Instr} {s t : State} (h : exec i s = .next t) : t.busy = false := by
  rcases exec_next h with ⟨-, rfl⟩ | ⟨-, e, -, -, rfl⟩ | ⟨-, -, rfl⟩ | ⟨-, -, -, rfl⟩ | ⟨-, p, r, rfl, -⟩ |
    ⟨-, -, -, -, rfl⟩ | ⟨-, -, -, rfl⟩ | ⟨-, -, -, rfl⟩ | ⟨-, -, d, -, rfl⟩ <;> rfl

/-- So has a word that is no command. -/
theorem runWord_busy {w : Word} {s t : State} (h : runWord w s = .next t) : t.busy = false := by
  rcases runWord_next h with ⟨i, -, hi⟩ | ⟨-, rfl⟩ | ⟨-, rfl⟩
  · exact exec_busy hi
  · rfl
  · rfl

/-- Settles O40: every command goes on from a state of the invariant, which it keeps. -/
theorem everyCommandCompletes : Obligations.EveryCommandCompletes := by
  intro i s hs
  obtain ⟨t, ht⟩ := exec_completes hs i
  exact ⟨t, ht, exec_busy ht, (hs.exec ht).outLenFits⟩

/-- Outside FAULT a command ends with OK, with an error that writes ERR alone, or with ERR_CONFIG, a cause and
FAULT (R203). -/
theorem exec_errors {i : Instr} {s t : State} (hp : s.phase ≠ .fault) (h : exec i s = .next t) :
    t.err = .ok ∨ (∃ e, e ≠ .config ∧ t = raiseError e s) ∨
      ∃ c, t = raiseError .config { s with cfgCause := c, phase := .fault } := by
  rcases exec_next h with ⟨hf, -⟩ | ⟨-, e, -, he, rfl⟩ | ⟨-, -, rfl⟩ | ⟨-, -, -, rfl⟩ | ⟨-, p, r, rfl, -⟩ |
    ⟨-, -, -, -, rfl⟩ | ⟨-, -, -, rfl⟩ | ⟨-, -, -, rfl⟩ | ⟨-, -, d, -, rfl⟩
  · exact absurd hf hp
  · exact .inr (.inl ⟨e, he, rfl⟩)
  iterate 5 exact .inl rfl
  · exact .inr (.inr ⟨_, rfl⟩)
  · exact .inl rfl

/-! ## The order of the checks -/

/-- Outside FAULT an illegal word raises ERR_ILLEGAL (R205). -/
theorem runWord_illegal {w : Word} {e : Illegal} {s : State} (hp : s.phase ≠ .fault) (hw : decode w = .error e) :
    runWord w s = .next (raiseError .illegal s) :=
  (runWord_error hw s).trans (unlessFault_ne hp _)

/-- An answer that does not go on with ERR_PHASE. -/
def NoPhaseError (a : Answer) : Prop := ∀ t, a = .next t → t.err ≠ .phase

theorem noPhaseError_completeOk (s : State) : NoPhaseError (.next (completeOk s)) := by
  rintro _ ⟨⟩
  exact nofun

theorem noPhaseError_raiseError {e : ErrCode} (he : e ≠ .phase) (s : State) :
    NoPhaseError (.next (raiseError e s)) := by
  rintro _ ⟨⟩
  exact he

theorem noPhaseError_emitResult (d : List Byte) (s : State) : NoPhaseError (emitResult d s) := by
  intro t h
  obtain ⟨-, rfl⟩ := emitResult_next h
  exact nofun

theorem noPhaseError_withOperand {s : State} {k : List Byte → Answer} (hk : NoPhaseError (k s.operand)) :
    NoPhaseError (withOperand s k) := by
  rcases withOperand_cases s k with ⟨-, e⟩ | ⟨-, e⟩
  · exact e ▸ noPhaseError_raiseError (by decide) s
  · exact e ▸ hk

theorem noPhaseError_withMappingOperand {s : State} {k : List Byte → Answer} (hk : NoPhaseError (k s.operand)) :
    NoPhaseError (withMappingOperand s k) := by
  rcases withMappingOperand_cases s k with ⟨-, e⟩ | ⟨-, -, e⟩
  · exact e ▸ noPhaseError_raiseError (by decide) s
  · exact e ▸ hk

/-- Every command but NEW first checks its one phase, the one of the table of R206, and no rule behind the check
raises ERR_PHASE. -/
theorem exec_eq_inPhase {i : Instr} (hi : i ≠ .new) (s : State) :
    ∃ ph k, ph ≠ .fault ∧ (∀ p, i.allowedIn p = decide (p = ph)) ∧ exec i s = inPhase ph s k ∧
      NoPhaseError k := by
  cases i with
  | new => exact absurd rfl hi
  | setName =>
    exact ⟨.building, _, by decide, fun _ => rfl, rfl, noPhaseError_withOperand (noPhaseError_completeOk _)⟩
  | setPadding en => exact ⟨.building, _, by decide, fun _ => rfl, rfl, noPhaseError_completeOk _⟩
  | declareMapping =>
    exact ⟨.building, _, by decide, fun _ => rfl, rfl, noPhaseError_withMappingOperand (noPhaseError_completeOk _)⟩
  | declareAliases val =>
    exact ⟨.building, _, by decide, fun _ => rfl, rfl, noPhaseError_withOperand (noPhaseError_completeOk _)⟩
  | finalize =>
    refine ⟨.building, _, by decide, fun _ => rfl, rfl, ?_⟩
    split
    · exact noPhaseError_completeOk _
    · exact noPhaseError_raiseError (by decide) _
  | encode =>
    refine ⟨.frozen, _, by decide, fun _ => rfl, rfl, noPhaseError_withOperand ?_⟩
    split
    · exact noPhaseError_emitResult _ s
    · exact nofun
  | decode =>
    refine ⟨.frozen, _, by decide, fun _ => rfl, rfl, noPhaseError_withOperand ?_⟩
    split
    · exact noPhaseError_emitResult _ s
    · exact noPhaseError_raiseError (by decide) s
  | getName => exact ⟨.frozen, _, by decide, fun _ => rfl, rfl, noPhaseError_emitResult _ s⟩
  | getPadding => exact ⟨.frozen, _, by decide, fun _ => rfl, rfl, noPhaseError_emitResult _ s⟩

/-- In FAULT every command is ignored, NEW included (R210, R211). -/
theorem exec_fault {s : State} (hp : s.phase = .fault) (i : Instr) : exec i s = .next (ignoreCommand s) := by
  by_cases hi : i = .new
  · subst hi
    exact unlessFault_fault hp _
  · obtain ⟨ph, k, -, -, hexec, -⟩ := exec_eq_inPhase hi s
    exact hexec.trans (unlessFault_fault hp _)

/-- So is every word (R204 item 1). -/
theorem runWord_fault {s : State} (hp : s.phase = .fault) (w : Word) : runWord w s = .next (ignoreCommand s) := by
  cases hw : decode w with
  | ok i => exact (runWord_ok hw s).trans (exec_fault hp i)
  | error e => exact (runWord_error hw s).trans (unlessFault_fault hp _)

/-- A command in the phase its row of R206 does not name. -/
theorem exec_notAllowed {i : Instr} {s : State} (hp : s.phase ≠ .fault) (hi : i.allowedIn s.phase = false) :
    exec i s = .next (raiseError .phase s) := by
  have hnew : i ≠ .new := by
    rintro rfl
    have hneither := of_decide_eq_false hi
    cases hs : s.phase with
    | building => exact hneither (.inl hs)
    | frozen => exact hneither (.inr hs)
    | fault => exact hp hs
  obtain ⟨ph, k, -, hph, hexec, -⟩ := exec_eq_inPhase hnew s
  rw [hph] at hi
  exact hexec.trans (inPhase_ne (of_decide_eq_false hi) hp k)

theorem exec_allowed_noPhaseError {i : Instr} {s : State} (hp : s.phase ≠ .fault)
    (hi : i.allowedIn s.phase = true) : NoPhaseError (exec i s) := by
  by_cases hnew : i = .new
  · subst hnew
    have hexec : exec .new s = .next (completeOk s.freshSlot) := unlessFault_ne hp _
    exact hexec ▸ noPhaseError_completeOk _
  · obtain ⟨ph, k, hf, hph, hexec, hk⟩ := exec_eq_inPhase hnew s
    rw [hph] at hi
    rw [hexec, inPhase_eq (of_decide_eq_true hi) hf]
    exact hk

/-- DECLARE_MAPPING takes an operand of 32 bytes only (R104, R207). -/
theorem exec_declareMapping_wrongLength {s : State} (hp : s.phase = .building) (hl : s.inLen ≠ 32) :
    exec .declareMapping s = .next (raiseError .length s) :=
  (inPhase_building hp _).trans (if_neg hl)

/-- Settles O32: the phase check is the first rule of every command but NEW, and the only one that raises
ERR_PHASE. -/
theorem wrongPhaseRaisesErrPhase : Obligations.WrongPhaseRaisesErrPhase :=
  fun _ _ hp => ⟨exec_notAllowed hp, exec_allowed_noPhaseError hp⟩

/-- Settles O33: behind the phase check, the length rule reads IN_LEN alone. -/
theorem lengthRules : Obligations.LengthRules := by
  refine fun s => ⟨fun hp hl => ⟨?_, fun val => ?_⟩, fun hp hl => ⟨?_, ?_⟩, exec_declareMapping_wrongLength⟩
  · exact exec_tooLong hl (decide_eq_true hp) (.inl rfl)
  · exact exec_tooLong hl (decide_eq_true hp) (.inr (.inr (.inl ⟨val, rfl⟩)))
  · exact exec_tooLong hl (decide_eq_true hp) (.inr (.inr (.inr (.inl rfl))))
  · exact exec_tooLong hl (decide_eq_true hp) (.inr (.inr (.inr (.inr rfl))))

/-- Settles O35: a command that does not complete with OK ends in `raiseError`, and so does an illegal word. -/
theorem errorsWriteNothingElse : Obligations.ErrorsWriteNothingElse := by
  refine ⟨fun i s t hp h => ?_, fun s w e hp hw => runWord_illegal hp hw⟩
  rcases exec_errors hp h with hok | ⟨e, he, rfl⟩ | ⟨c, rfl⟩
  · exact ⟨fun hne => absurd hok hne, fun hc => by simp [hok] at hc⟩
  · exact ⟨fun _ _ => rfl, fun hc => absurd hc he⟩
  · exact ⟨fun _ hne => absurd rfl hne, fun _ => rfl⟩

/-- Settles O36: the word that is due meets the check of FAULT, the decoder, the phase check and the length rule in
this order. -/
theorem errorPriority : Obligations.ErrorPriority := by
  intro s w hw
  rw [step_due hw]
  refine ⟨fun hp => runWord_fault hp w, fun hp ⟨e, he⟩ => runWord_illegal hp he,
    fun i hp hi hno => (runWord_ok hi s).trans (exec_notAllowed hp hno),
    fun i hi hyes hlen => (runWord_ok hi s).trans ?_⟩
  rcases hlen with ⟨rfl, hl⟩ | ⟨hl, hi⟩
  · exact exec_declareMapping_wrongLength (of_decide_eq_true hyes) hl
  · exact exec_tooLong hl hyes (hi.imp_right .inr)

/-! ## Issue, execution and completion -/

/-- Settles O4: neither BUILDING nor FROZEN is FAULT, so the word is rejected. -/
theorem illegalWordRaisesErrIllegal : Obligations.IllegalWordRaisesErrIllegal := by
  intro s w e hw he hp
  have hnf : s.phase ≠ .fault := by rcases hp with hp | hp <;> simp [hp]
  exact (step_due hw).trans (runWord_illegal hnf he)

/-- A row of the opcode table decodes as its command word (log 13). -/
theorem decode_of_decodeTableWord {n w : Nat} {i : Instr} (h : decodeTableWord n w = some i) :
    decode (tableWord n w) = .ok i := by
  unfold decodeTableWord at h
  cases hd : decode (tableWord n w) with
  | ok j =>
    rw [hd] at h
    exact congrArg Except.ok (Option.some.inj h)
  | error e =>
    rw [hd] at h
    exact nomatch h

/-- Settles O5: `withFetchWord` is a word that is due. -/
theorem stepRunsDecodedCommand : Obligations.StepRunsDecodedCommand :=
  ⟨fun s _ _ hw hi => (step_due hw).trans (runWord_ok hi s),
    fun s n _ hi => (step_due (s := s.withFetchWord 32 n) rfl).trans (runWord_ok (decode_of_decodeTableWord hi) _)⟩

/-- In FAULT the issue of a command is ignored (R200, R210). -/
theorem issueCommand_fault {s : State} (hp : s.phase = .fault) (w : Word) : issueCommand w s = s := if_pos hp

/-- Settles O6: the write issues the word unless the phase is FAULT, and the step of a word that is due runs it. -/
theorem commandIssueAndCompletion : Obligations.CommandIssueAndCompletion := by
  intro s w rest he ho
  rw [step_write_cmd he ho]
  refine ⟨fun hp => ?_, fun hp => ⟨_, congrArg Host.Outcome.next (if_neg hp)⟩, fun u t hw h => ?_⟩
  · rw [issueCommand_fault (s := { s with hostOps := rest }) hp]
  · rw [step_due hw] at h
    refine ⟨runWord_busy h, fun i hi => runWord_ok hi u ▸ h, fun e hd hp => ?_⟩
    exact Host.Outcome.next.inj (h.symm.trans (runWord_illegal hp hd))

/-! ## FAULT -/

/-- The bytes a host writes to IN lie below OUT (R51, R52). -/
theorem outByte_writeBytes_in {s : State} (hv : s.params.Valid) {i : Nat} {n : Width}
    (hi : i + n.bytes ≤ s.params.inMax) (v : Word) (k : Nat) :
    State.outByte { s with mem := s.mem.writeBytes (inBase + i) (leBytes v n) } k = s.outByte k := by
  obtain ⟨-, hin, -⟩ := hv
  have := inBase_eq
  have := outBase_eq
  refine readByte_writeBytes_outside (.inr ?_)
  rw [leBytes_length]
  omega

/-- In FAULT an allowed host write changes at most IN and IN_LEN (R210). -/
theorem hostWrite_fault {s t : State} {a : Nat} {r : Region} {n : Width} {v : Word} (hv : s.params.Valid)
    (hp : s.phase = .fault) (hr : regionOf s.params a n = some r) (h : hostWrite r n v s = .next t) :
    { t with mem := s.mem, inLen := s.inLen } = s ∧ ∀ k, t.outByte k = s.outByte k := by
  rcases hostWrite_next h with ⟨-, -, rfl⟩ | ⟨-, -, rfl⟩ | ⟨i, rfl, -, rfl⟩ | rfl
  · rw [issueCommand_fault hp]
    exact ⟨rfl, fun _ => rfl⟩
  · exact ⟨rfl, fun _ => rfl⟩
  · obtain ⟨-, hi⟩ := regionOf_inWindow hr
    exact ⟨rfl, outByte_writeBytes_in hv hi v⟩
  · exact ⟨rfl, fun _ => rfl⟩

/-- In FAULT a host's turn that is no reset changes at most IN, IN_LEN and the host's own lists (R210). -/
theorem hostTurn_fault {s t : State} (hv : s.params.Valid) (hp : s.phase = .fault) (h : hostTurn s = .next t)
    (hreset : ∀ rest, s.hostOps ≠ .reset :: rest) :
    { t with mem := s.mem, inLen := s.inLen, hostOps := s.hostOps, reads := s.reads } = s ∧
      ∀ k, t.outByte k = s.outByte k := by
  rcases hostTurn_next h with ⟨-, rfl⟩ | ⟨a, n, rest, v, -, -, rfl⟩ | ⟨a, n, v, rest, r, -, hr, hw⟩ |
    ⟨rest, -, rfl⟩ | ⟨rest, hrest, -⟩
  · exact ⟨rfl, fun _ => rfl⟩
  · exact ⟨rfl, fun _ => rfl⟩
  · obtain ⟨hkeep, hout⟩ := hostWrite_fault (s := { s with hostOps := rest }) hv hp hr hw
    exact ⟨congrArg (fun u : State => { u with hostOps := s.hostOps, reads := s.reads }) hkeep, hout⟩
  · split <;> exact ⟨rfl, fun _ => rfl⟩
  · exact absurd hrest (hreset rest)

/-- Settles O37: with BUSY = 0 the step is the host's turn. -/
theorem faultIgnoresEveryCommand : Obligations.FaultIgnoresEveryCommand := by
  refine ⟨fun i s hp => exec_fault hp i, fun s t hv hp he h hreset => ?_⟩
  obtain ⟨hm, ht⟩ := step_idle he
  rw [step_hostMoves hm, ht] at h
  exact hostTurn_fault hv hp h hreset

/-- Settles O38: a host's turn that is no reset keeps PHASE, and a word that is due is ignored in FAULT. -/
theorem onlyResetLeavesFault : Obligations.OnlyResetLeavesFault := by
  intro s t hp h hleft
  by_contra hreset
  refine hleft ?_
  rcases step_next h with ⟨-, ht⟩ | ⟨w, -, hw⟩
  · have hkeep := hostTurn_frame ht fun rest ho => hreset ⟨rest, ho⟩
    exact (congrArg State.phase hkeep).trans hp
  · rw [runWord_fault hp] at hw
    exact Host.Outcome.next.inj hw ▸ hp

end Sys2Proof.Machine

/-! PROOFS. Reset and the host's writes while a command executes (70_reset_and_hazards.md). -/

namespace Sys2Proof.Machine

/-! ## Writes while BUSY = 1 -/

/-- While BUSY = 1 a host write to CMD, IN_LEN or IN is refused, wherever in IN it falls (R233). -/
theorem hostWrite_busy_refused {r : Region} {s : State} (hb : s.engine.isSome = true)
    (hr : r = .cmd ∨ r = .inLen ∨ ∃ i, r = .inWindow i) (n : Width) (v : Word) :
    hostWrite r n v s = .refused .writeWhileBusy := by
  rcases hr with rfl | rfl | ⟨i, rfl⟩ <;> exact unlessBusy_busy hb _

/-- An aligned access that lies inside the IN window falls on one of its bytes (R51, R52). -/
theorem regionOf_in_of_bounds {p : Params} {a : Nat} {n : Width} (halign : a % n.bytes = 0) (hlow : 0x100000 ≤ a)
    (hhigh : a + n.bytes ≤ 0x100000 + p.inMax) : ∃ i, regionOf p a n = some (.inWindow i) := by
  obtain ⟨i, rfl⟩ := Nat.exists_eq_add_of_le hlow
  have hi : i % n.bytes = 0 := by
    obtain ⟨-, -, hbase, -⟩ := n.bytes_facts
    rwa [Nat.add_mod, hbase, Nat.zero_add, Nat.mod_mod] at halign
  exact ⟨i, regionOf_inside_in hi (by omega)⟩

/-- Settles O49: each of the writes falls on CMD, IN_LEN or IN, and one turn less to wait leaves BUSY = 1. -/
theorem writesWhileBusyAreRefused : Obligations.WritesWhileBusyAreRefused := by
  intro s w k a n v rest hw ho ha
  have hregion : ∃ r, regionOf s.params a.toNat n = some r ∧ (r = .cmd ∨ r = .inLen ∨ ∃ i, r = .inWindow i) := by
    rcases ha with ⟨rfl, rfl⟩ | ⟨rfl, rfl⟩ | ⟨halign, hlow, hhigh⟩
    · exact ⟨.cmd, regionOf_register (by decide) (by decide), .inl rfl⟩
    · exact ⟨.inLen, regionOf_register (by decide) (by decide), .inr (.inl rfl)⟩
    · obtain ⟨i, hi⟩ := regionOf_in_of_bounds halign hlow hhigh
      exact ⟨.inWindow i, hi, .inr (.inr ⟨i, rfl⟩)⟩
  obtain ⟨r, hr, hguard⟩ := hregion
  have hbusy : s.ticked.engine.isSome = true := by simp [State.ticked, hw]
  rw [step_write (hostMoves_of_waiting hw) ho hr]
  exact hostWrite_busy_refused (s := { s.ticked with hostOps := rest }) hbusy hguard n v

/-! ## Reset -/

/-- The step of a reset. It abandons an executing command, so the turns that command still waits do not matter
(R230). -/
theorem step_reset {s : State} {rest : List HostOp} (hm : s.HostMoves) (ho : s.hostOps = .reset :: rest) :
    step s = .next (resetBlock { s with hostOps := rest }) := by
  rw [step_hostMoves hm, hostTurn, ticked_hostOps, ho]
  rfl

/-- Settles O51: the step is `resetBlock`, whose fields are those of State.reset, and both tables are cleared. -/
theorem resetRestoresEveryState : Obligations.ResetRestoresEveryState :=
  fun _ _ hm ho => ⟨_, step_reset hm ho, Fwd.get_clear, Rev.get_clear, rfl, rfl, rfl, rfl, rfl, rfl, rfl, rfl, rfl, rfl,
    rfl⟩

/-- NEW outside FAULT starts the fresh slot (R101). -/
theorem exec_new {s : State} (hp : s.phase ≠ .fault) : exec .new s = .next (completeOk s.freshSlot) :=
  unlessFault_ne hp _

/-- Settles O52: `resetBlock` and NEW's `freshSlot` give the slot the same values, and both end with BUSY = 0. -/
theorem resetSlotEqualsNewSlot : Obligations.ResetSlotEqualsNewSlot := by
  intro s t u rest hm ho hp ht hu
  obtain rfl : resetBlock { s with hostOps := rest } = t := Host.Outcome.next.inj ((step_reset hm ho).symm.trans ht)
  obtain rfl : completeOk s.freshSlot = u := Host.Outcome.next.inj ((exec_new hp).symm.trans hu)
  exact ⟨rfl, rfl, rfl, rfl, rfl, rfl, rfl, rfl⟩

end Sys2Proof.Machine
